-- ==== Sys2Proof/Word.lean ====
section
/-! DEFINITION. The words at the ports of the SBFP core: SBFP patterns (R40), binary64 patterns (R46) and the
82-bit word of a wrapper invocation (R53). Bit 0 is the least significant bit of each (R10). -/

namespace Sys2Proof

/-- An SBFP pattern: 16 bits (R2, R40). Every pattern is valid (R41). -/
abbrev Sbfp := BitVec 16

/-- A binary64 pattern: 64 bits (R2, R46). -/
abbrev Binary64 := BitVec 64

/-- The concatenation {op, x, y} of a wrapper invocation: 82 bits (R53). -/
abbrev WrapperWord := BitVec 82

end Sys2Proof
end

