-- ==== Sys2Proof/Config.lean ====
section
/-! DEFINITION. What is fixed when the hardware is built: the format parameters (R6), the constants derived from
them (R7) and the parameters the sources leave open (R9; 93_implementation_defined.md U1 to U5, U9). -/

namespace Sys2Proof

/-- The exponent bias, 2^(EXP_W-1) - 1 (R6). -/
def bias : Int := 15

/-- The exponent field value that is reserved for Infinity and NaN (R6). -/
def reservedExponent : BitVec 5 := 31

/-- OVF, the overflow threshold 2^(BIAS+1) (R7). -/
def overflowThreshold : Nat := 65536

/-- log2 of DSCALE, the denormal scale factor 2^(BIAS-1); DTHRESH is 2^-14, its inverse (R7, 90_conflicts.md C3). -/
def denormalScaleLog2 : Int := 14

/-- PINF, +Infinity (R8, R44, C1). -/
def posInf : Sbfp := 0x7C00

/-- NINF, −Infinity (R8, R44, C1). -/
def negInf : Sbfp := 0xFC00

/-- CNAN, the canonical NaN (R8, R44, decision D9). -/
def canonicalNaN : Sbfp := 0x7C01

/-- The two values of MUL_INF_ZERO (R9, R91, U4). -/
inductive InfZeroPolicy where
  /-- Infinity times zero is the arithmetic NaN: the spec's value (D11). -/
  | nan
  /-- Infinity times zero is `0x0000`: the fall-through of the document's generic path. -/
  | zero
  deriving DecidableEq, Repr

/-- The parameters of R9 that a model may take as an argument. The spec's own values are
`Sys2Proof.Machine.specConfig`, and they are what the machine uses. -/
structure Config where
  /-- ENC_INF_POLICY: the encoding of a host Infinity with the given sign (U1, D6). -/
  encInf : BitVec 1 → Sbfp
  /-- ENC_NAN_POLICY: the encoding of a host NaN (U2, D7). -/
  encNaN : Binary64 → Sbfp
  /-- DEC_NAN_POLICY: the binary64 pattern of an SBFP NaN (U3, D8). -/
  decNaN : Sbfp → Binary64
  /-- ARITH_NAN: the NaN that the adder and the multiplier return (U5, D9, D10). -/
  arithNaN : Sbfp
  /-- MUL_INF_ZERO: the result of Infinity times zero (U4, D11). -/
  mulInfZero : InfZeroPolicy

/-- T_SETTLE, the settle time: OPEN, no value is chosen and no rule reads it (R9, R133, D16, U9). -/
opaque Config.tSettle : Nat

end Sys2Proof
end

