-- ==== Sys2Proof/Machine/Exact.lean ====
section
/-! DEFINITION. Exact numbers. Every rational that a rule names is an integer times a power of two, so an exact number
is such a pair and no operation on it rounds (R68, R93, R106; DEDUCED, notes/assumptions/11.md). -/

namespace Sys2Proof.Machine

/-- The exact magnitude `num * 2^exp`. -/
structure Magnitude where
  num : Nat
  exp : Int
  deriving DecidableEq, Repr

/-- The exact signed number `num * 2^exp`. -/
structure Exact where
  num : Int
  exp : Int
  deriving DecidableEq, Repr

/-- `m * 2^k`. -/
def Magnitude.scale (m : Magnitude) (k : Int) : Magnitude := { m with exp := m.exp + k }

/-- The greatest integer not above `m`. -/
def Magnitude.floor (m : Magnitude) : Nat :=
  if 0 ≤ m.exp then m.num <<< m.exp.toNat else m.num >>> (-m.exp).toNat

/-- `m - k`, for an integer `k` not above `m`. -/
def Magnitude.subNat (m : Magnitude) (k : Nat) : Magnitude :=
  if 0 ≤ m.exp then { num := (m.num <<< m.exp.toNat) - k, exp := 0 }
  else { num := m.num - (k <<< (-m.exp).toNat), exp := m.exp }

/-- The product of two magnitudes. -/
def Magnitude.mul (m n : Magnitude) : Magnitude := { num := m.num * n.num, exp := m.exp + n.exp }

/-- The absolute value. -/
def Exact.magnitude (v : Exact) : Magnitude := { num := v.num.natAbs, exp := v.exp }

/-- `v * 2^k`. -/
def Exact.scale (v : Exact) (k : Int) : Exact := { v with exp := v.exp + k }

/-- The magnitude `m` with the sign of a sign bit: `(-1)^s * m`. -/
def Magnitude.withSign (m : Magnitude) (s : BitVec 1) : Exact :=
  { num := if s = 1 then -(m.num : Int) else m.num, exp := m.exp }

end Sys2Proof.Machine
end

