-- ==== Sys2Proof/Syntax.lean ====
section
/-! DEFINITION. The four operations of the core, one constructor per row of opcode_table.json (R1, R55), and the
wrapper tuple (op, x, y) that selects them (R24, R53). -/

namespace Sys2Proof

/-- An invocation with its operands. Only the bits an operation reads are operands (R54). -/
inductive Instr where
  /-- ENCODE: binary64 to SBFP (R59). -/
  | encode (v : Binary64)
  /-- DECODE: SBFP to binary64 (R76). -/
  | decode (v : Sbfp)
  /-- MUL: SBFP times SBFP (R86). -/
  | mul (a b : Sbfp)
  /-- ADD: SBFP plus SBFP (R98). -/
  | add (a b : Sbfp)
  deriving DecidableEq, Repr

/-- The wrapper's input tuple: 2 + 64 + 16 bits (R53). -/
structure Tuple where
  op : BitVec 2
  x : BitVec 64
  y : BitVec 16
  deriving DecidableEq, Repr

/-- A row of opcode_table.json: a word `w` is in the row when `w &&& mask = pattern`. -/
structure OpcodeRow where
  mnemonic : String
  mask : WrapperWord
  pattern : WrapperWord
  deriving DecidableEq, Repr

end Sys2Proof
end

