-- ==== Sys2Proof/Machine/Operands.lean ====
section
/-! DEFINITION. The operands: the fields and classes of both formats (R40 to R51) and the bits that each wrapper
operation reads (R54). -/

namespace Sys2Proof.Machine

/-- The sign bit `h[15]` (R40). -/
def sbfpSign (h : Sbfp) : BitVec 1 := h.extractLsb' 15 1

/-- The exponent field `h[14:10]` (R40). -/
def sbfpExp (h : Sbfp) : BitVec 5 := h.extractLsb' 10 5

/-- The fraction field `h[9:0]` (R40). -/
def sbfpFrac (h : Sbfp) : BitVec 10 := h.extractLsb' 0 10

/-- `{s, e, f} = s*2^15 + e*2^10 + f`, the sign highest and the fraction lowest (R40, R67). -/
def pack (s : BitVec 1) (e : BitVec 5) (f : BitVec 10) : Sbfp :=
  BitVec.ofNat 16 (s.toNat * 2 ^ 15 + e.toNat * 2 ^ 10 + f.toNat)

/-- The kinds of value that the fields select (R42). -/
inductive SbfpKind where
  | infinity
  | nan
  | normalized
  | denormalized
  | zero
  deriving DecidableEq, Repr

/-- The kind of an SBFP pattern (R42). -/
def sbfpKind (h : Sbfp) : SbfpKind :=
  if sbfpExp h = reservedExponent then (if sbfpFrac h = 0 then .infinity else .nan)
  else if sbfpExp h = 0 then (if sbfpFrac h = 0 then .zero else .denormalized)
  else .normalized

/-- The tags of the class union (R48). -/
inductive SbfpClass where
  | posInf
  | negInf
  | nan
  | finite
  deriving DecidableEq, Repr

/-- class(h) (R48). -/
def classOf (h : Sbfp) : SbfpClass :=
  if sbfpExp h = reservedExponent ∧ sbfpFrac h = 0 then (if sbfpSign h = 0 then .posInf else .negInf)
  else if sbfpExp h = reservedExponent ∧ sbfpFrac h ≠ 0 then .nan
  else .finite

/-- The class is one of the two Infinities. -/
def SbfpClass.isInf : SbfpClass → Bool
  | .posInf => true
  | .negInf => true
  | .nan => false
  | .finite => false

/-- isZero(h): the low 15 bits are 0 (R49). -/
def isZero (h : Sbfp) : Bool := h.extractLsb' 0 15 == 0

/-- The parts of a finite operand: sign, unbiased exponent and mantissa (R50). -/
structure Unpacked where
  sign : BitVec 1
  exponent : Int
  mantissa : Magnitude
  deriving DecidableEq, Repr

/-- The 11-bit integer significand 1024*M: the fraction of a denormal, 1024 more for a normal (R51). -/
def significand (h : Sbfp) : Nat :=
  if sbfpExp h = 0 then (sbfpFrac h).toNat else 1024 + (sbfpFrac h).toNat

/-- The unbiased exponent: 1 - bias for a denormal, e - bias for a normal (R50). -/
def unbiasedExponent (h : Sbfp) : Int :=
  if sbfpExp h = 0 then 1 - bias else (sbfpExp h).toNat - bias

/-- unpack(h), meant for finite patterns; M is fraction / 2^10, plus 1 for a normal (R50). -/
def unpack (h : Sbfp) : Unpacked :=
  { sign := sbfpSign h
    exponent := unbiasedExponent h
    mantissa := { num := significand h, exp := -10 } }

/-- The sign bit `d[63]` (R46). -/
def binary64Sign (d : Binary64) : BitVec 1 := d.extractLsb' 63 1

/-- The biased exponent `d[62:52]` (R46). -/
def binary64Exp (d : Binary64) : BitVec 11 := d.extractLsb' 52 11

/-- The fraction `d[51:0]` (R46). -/
def binary64Frac (d : Binary64) : BitVec 52 := d.extractLsb' 0 52

/-- `d[50:41]`, the fraction bits that an encoded NaN keeps (R60). -/
def binary64NaNPayload (d : Binary64) : BitVec 10 := d.extractLsb' 41 10

/-- The binary64 pattern `{s, x, g}`, the sign highest and the fraction lowest (R46). -/
def packBinary64 (s : BitVec 1) (x : BitVec 11) (g : BitVec 52) : Binary64 :=
  BitVec.ofNat 64 (s.toNat * 2 ^ 63 + x.toNat * 2 ^ 52 + g.toNat)

/-- The kinds of binary64 value (R46). -/
inductive Binary64Kind where
  | infinity
  | nan (quiet : Bool)
  | zero
  | subnormal
  | normal
  deriving DecidableEq, Repr

/-- The kind of a binary64 pattern (R46). -/
def binary64Kind (d : Binary64) : Binary64Kind :=
  if binary64Exp d = 2047 then
    (if binary64Frac d = 0 then .infinity else .nan (d.getLsbD 51))
  else if binary64Exp d = 0 then (if binary64Frac d = 0 then .zero else .subnormal)
  else .normal

/-- real64(d) as an exact number, meant for finite patterns (R47). -/
def exact64 (d : Binary64) : Exact :=
  if binary64Exp d = 0 then
    Magnitude.withSign { num := (binary64Frac d).toNat, exp := -1074 } (binary64Sign d)
  else
    Magnitude.withSign
      { num := 2 ^ 52 + (binary64Frac d).toNat, exp := (binary64Exp d).toNat - 1075 } (binary64Sign d)

/-- real(h) as an exact number, meant for finite patterns: (-1)^s * M * 2^E (R43, R50). -/
def exact16 (h : Sbfp) : Exact :=
  ((unpack h).mantissa.scale (unpack h).exponent).withSign (unpack h).sign

/-- The bits of x that the operation selected by op reads (R54). -/
def readMaskX (op : BitVec 2) : BitVec 64 := if op = 0b00#2 then BitVec.allOnes 64 else 0xFFFF#64

/-- The bits of y that the operation selected by op reads (R54). -/
def readMaskY (op : BitVec 2) : BitVec 16 :=
  if op = 0b00#2 then 0 else if op = 0b01#2 then 0 else BitVec.allOnes 16

end Sys2Proof.Machine
end

