-- ==== Sys2Proof/Machine/State.lean ====
section
/-! DEFINITION. What a step reads and writes. The core holds no architectural state (R11); State holds the signals at
the ports of the wrapper (R24) and of the four units (R18 to R21), because a step is one invocation (R22). -/

namespace Sys2Proof.Machine

/-- The core's architectural state: the unit type, with nothing in it (R11 to R17). -/
structure ArchState where
  deriving DecidableEq, Repr

/-- An input port of `n` bits as the host leaves it. -/
inductive Input (n : Nat) where
  /-- Driven by the host. A bit of `driven` is 1 where the host drives the bit of `value` to a defined 0 or 1, and 0
  where it is undriven, X or Z (R126, R130). -/
  | host (value driven : BitVec n)
  /-- Wired combinationally to the output of the unit it feeds (R133, U11). -/
  | ownOutput
  deriving DecidableEq, Repr

/-- The input ports of the wrapper (R24). -/
inductive InputPort where
  | op
  | x
  | y
  deriving DecidableEq, Repr

/-- The ports of fp_encoder (R18). -/
structure EncoderPorts where
  value : Binary64
  result : Sbfp
  deriving DecidableEq, Repr

/-- The ports of fp_decoder (R19). -/
structure DecoderPorts where
  value : Sbfp
  result : Binary64
  deriving DecidableEq, Repr

/-- The ports of fp_multiplier_16bit (R20). -/
structure MultiplierPorts where
  a : Sbfp
  b : Sbfp
  c : Sbfp
  deriving DecidableEq, Repr

/-- The ports of fp_adder_16bit (R21). -/
structure AdderPorts where
  a : Sbfp
  b : Sbfp
  c : Sbfp
  deriving DecidableEq, Repr

/-- The core and the signals at its ports. -/
structure State where
  /-- The core's own state, which is empty (R11). -/
  arch : ArchState
  /-- The wrapper's operation select (R24, R53). -/
  op : Input 2
  /-- The wrapper's first operand (R24, R53). -/
  x : Input 64
  /-- The wrapper's second operand (R24, R53). -/
  y : Input 16
  /-- The wrapper's output after the last invocation (R24). -/
  r : BitVec 64
  /-- fp_encoder's ports at its last invocation (R18). -/
  encoder : EncoderPorts
  /-- fp_decoder's ports at its last invocation (R19). -/
  decoder : DecoderPorts
  /-- fp_multiplier_16bit's ports at its last invocation (R20). -/
  multiplier : MultiplierPorts
  /-- fp_adder_16bit's ports at its last invocation (R21). -/
  adder : AdderPorts
  deriving DecidableEq, Repr

/-- There is no fault: every operation returns a value for all inputs (R110, R126). No constructor, so nothing raises
one. -/
inductive Fault where
  deriving DecidableEq, Repr

/-- Why an invocation is refused. -/
inductive Refusal where
  /-- Raised by `exec` for an instruction without a meaning; no arm raises it here. Safe. -/
  | notModelled (mnemonic : String)
  /-- Raised by `step` when a bit of the port that the invocation reads has no defined 0 or 1 value: the model refuses
  rather than choosing a value for it (R126, D15, U10). Safe. -/
  | undrivenInput (port : InputPort)
  /-- Raised by `step` when a port that the invocation reads is wired combinationally to the invocation's own output:
  the loop has no defined value (R133, D19, U11). Safe. -/
  | combinationalLoop (port : InputPort)
  deriving DecidableEq, Repr

/-- A port with every bit driven by the host. -/
def Input.full {n : Nat} (v : BitVec n) : Input n := .host v (BitVec.allOnes n)

/-- The core right after power-up. There is no reset and no signal has a reset value (R26, R127). DESIGN CHOICE
(notes/assumptions/3.md), unsafe: every input is driven to 0, and every output is settled on those inputs (R128). -/
def State.reset : State :=
  { arch := {}
    op := Input.full 0
    x := Input.full 0
    y := Input.full 0
    r := 0
    encoder := { value := 0, result := 0 }
    decoder := { value := 0, result := 0 }
    multiplier := { a := 0, b := 0, c := 0 }
    adder := { a := 0, b := 0, c := 0 } }

end Sys2Proof.Machine
end

