-- ==== Sys2Proof/Machine/Ops.lean ====
section
/-! DEFINITION. The operations that the units share: truncation, normalization and packing (R61 to R67, R69), building
a binary64 pattern (R76, R82), the spec's parameter values (R9), reading an input port (R126, R133) and delivering a
unit's result (R24, R31). There is no exception to take and none to return from (R110, R114, R115). -/

namespace Sys2Proof.Machine

/-- `k` rounds of the doubling of R66: the next bit is the integer part of the doubled remainder. -/
def extractBits : Nat → Magnitude → Nat → Nat
  | 0, _, bits => bits
  | k + 1, r, bits =>
    extractBits k ((r.scale 1).subNat (r.scale 1).floor) (2 * bits + (r.scale 1).floor)

/-- extract10(r): the first 10 fraction bits of a remainder below 1, by truncation (R66). -/
def extract10 (r : Magnitude) : BitVec 10 := BitVec.ofNat 10 (extractBits 10 r 0)

/-- Halves the magnitude while it is 2 or more, at most `fuel` times, counting the halvings (R65). -/
def halveLoop : Nat → Magnitude → Int → Magnitude × Int
  | 0, n, e => (n, e)
  | fuel + 1, n, e => if 2 ≤ n.floor then halveLoop fuel (n.scale (-1)) (e + 1) else (n, e)

/-- Doubles the magnitude while it is below 1, at most `fuel` times, counting the doublings (R65). -/
def doubleLoop : Nat → Magnitude → Int → Magnitude × Int
  | 0, n, e => (n, e)
  | fuel + 1, n, e => if n.floor < 1 then doubleLoop fuel (n.scale 1) (e - 1) else (n, e)

/-- Step 5 of the encoder: (n, E) with m = n * 2^E and n in [1, 2). At most 15 halvings or 14 doublings are needed
(R65, R71). -/
def normalize (m : Magnitude) : Magnitude × Int :=
  doubleLoop 14 (halveLoop 15 m 0).1 (halveLoop 15 m 0).2

/-- Step 1 of the encoder: the sign is 1 for a negative number; zero is treated as positive (R61). -/
def signOf (v : Exact) : BitVec 1 := if v.num < 0 then 1 else 0

/-- Step 2 of the encoder: the truncated integer part reaches the overflow threshold (R62). -/
def overflows (m : Magnitude) : Bool := overflowThreshold ≤ m.floor

/-- Step 3 of the encoder: the integer part is 0 and the magnitude is below 2^-14 (R63, C3). -/
def takesDenormalPath (m : Magnitude) : Bool := m.floor = 0 && (m.scale denormalScaleLog2).floor < 1

/-- Steps 1 to 7 of the encoder on an exact number: sign, overflow, denormal, normalize, truncate, pack (R61 to R67).
This is encodeQ, with which the multiplier and the adder re-encode (R69). -/
def encodeExact (v : Exact) : Sbfp :=
  if overflows v.magnitude then pack (signOf v) reservedExponent 0
  else if takesDenormalPath v.magnitude then
    pack (signOf v) 0 (extract10 (v.magnitude.scale denormalScaleLog2))
  else
    pack (signOf v) (BitVec.ofInt 5 ((normalize v.magnitude).2 + bias))
      (extract10 ((normalize v.magnitude).1.subNat 1))

/-- bits64(s, mag): the binary64 pattern with sign bit `s` and magnitude `mag`. Meant for zero and for magnitudes in
the normal range with at most 53 significant bits, which are all the decoder produces (R76, R82). -/
def bits64 (s : BitVec 1) (m : Magnitude) : Binary64 :=
  if m.num = 0 then packBinary64 s 0 0
  else
    packBinary64 s (BitVec.ofInt 11 (m.exp + Nat.log2 m.num + 1023))
      (BitVec.ofNat 52 ((m.num - 2 ^ Nat.log2 m.num) * 2 ^ (52 - Nat.log2 m.num)))

/-- The fraction `{1, f, 41'd0}` of the quiet NaN that carries an SBFP fraction (R78, D8). -/
def quietNaNFrac (f : BitVec 10) : BitVec 52 := BitVec.ofNat 52 (2 ^ 51 + f.toNat * 2 ^ 41)

/-- The values that the spec gives the parameters of R9: D6 (R60), D7 (R60), D8 (R78), D9 and D10 (R88, R100), D11
(R91). -/
def specConfig : Config :=
  { encInf := fun s => pack s reservedExponent 0
    encNaN := fun d =>
      pack (binary64Sign d) reservedExponent
        (if binary64NaNPayload d = 0 then 1 else binary64NaNPayload d)
    decNaN := fun h => packBinary64 (sbfpSign h) 2047 (quietNaNFrac (sbfpFrac h))
    arithNaN := canonicalNaN
    mulInfZero := .nan }

/-- The values that the parameters of R9 may take: an encoded NaN and the arithmetic NaN are SBFP NaNs, a decoded NaN
is a binary64 NaN (U2, U3, U5). -/
def LegalConfig (c : Config) : Prop :=
  (∀ d, binary64Exp d = 2047 → binary64Frac d ≠ 0 → classOf (c.encNaN d) = .nan) ∧
  (∀ h, classOf h = .nan → binary64Exp (c.decNaN h) = 2047 ∧ binary64Frac (c.decNaN h) ≠ 0) ∧
  classOf c.arithNaN = .nan

/-- What an invocation sees of a port of which it reads the bits in `mask`: their values, or a refusal where the port
is wired to the invocation's own output (R133) or one of them is not driven (R126). Bits outside the mask have no
effect (R24, R54). -/
def Input.read {n : Nat} (p : InputPort) (mask : BitVec n) : Input n → Except Refusal (BitVec n)
  | .host v d => if d &&& mask = mask then .ok (v &&& mask) else .error (.undrivenInput p)
  | .ownOutput => if mask = 0 then .ok 0 else .error (.combinationalLoop p)

/-- The host drives every input bit of the wrapper (R130). -/
def State.drive (s : State) (t : Tuple) : State :=
  { s with op := Input.full t.op, x := Input.full t.x, y := Input.full t.y }

/-- fp_encoder reads `v` and drives `c`; the wrapper drives it zero-extended on r (R18, R24, R31). -/
def State.deliverEncoder (s : State) (v : Binary64) (c : Sbfp) : State :=
  { s with encoder := { value := v, result := c }, r := c.setWidth 64 }

/-- fp_decoder reads `v` and drives `d`; the wrapper drives it on r (R19, R24, R31). -/
def State.deliverDecoder (s : State) (v : Sbfp) (d : Binary64) : State :=
  { s with decoder := { value := v, result := d }, r := d }

/-- fp_multiplier_16bit reads `a` and `b` and drives `c`; the wrapper drives it zero-extended on r (R20, R24, R31). -/
def State.deliverMultiplier (s : State) (a b c : Sbfp) : State :=
  { s with multiplier := { a := a, b := b, c := c }, r := c.setWidth 64 }

/-- fp_adder_16bit reads `a` and `b` and drives `c`; the wrapper drives it zero-extended on r (R21, R24, R31). -/
def State.deliverAdder (s : State) (a b c : Sbfp) : State :=
  { s with adder := { a := a, b := b, c := c }, r := c.setWidth 64 }

end Sys2Proof.Machine
end

