-- ==== Sys2Proof/Machine/Adder.lean ====
section
/-! DEFINITION. fp_adder_16bit: SBFP plus SBFP (43_add.md). -/

namespace Sys2Proof.Machine

/-- A mantissa scaled up to the smaller exponent `em`, with the sign factor 1 - 2s, in units of 2^-10 (R103, R104). -/
def alignedMantissa (u : Unpacked) (em : Int) : Int :=
  (1 - 2 * (u.sign.toNat : Int)) * (u.mantissa.num * 2 ^ (u.exponent - em).toNat)

/-- The exact sum of two finite operands: aligned to the smaller exponent, signed mantissas added, then scaled by
2^Em (R103 to R106). -/
def exactSum (a b : Sbfp) : Exact :=
  Exact.scale
    { num := alignedMantissa (unpack a) (min (unpack a).exponent (unpack b).exponent)
        + alignedMantissa (unpack b) (min (unpack a).exponent (unpack b).exponent)
      exp := -10 }
    (min (unpack a).exponent (unpack b).exponent)

/-- add(a, b): NaN first, then two Infinities, then one Infinity, then the finite path (R98 to R106, R113). -/
def fpAdd (c : Config) (a b : Sbfp) : Sbfp :=
  if classOf a = .nan ∨ classOf b = .nan then c.arithNaN
  else if (classOf a).isInf ∧ (classOf b).isInf then (if classOf a = classOf b then a else c.arithNaN)
  else if (classOf a).isInf then a
  else if (classOf b).isInf then b
  else encodeExact (exactSum a b)

/-- ADD: op = 11, a = x[15:0], b = y, r = zext_64(add(a, b)) (R54, R55, R98). -/
def execAdd (a b : Sbfp) (s : State) : Host.Outcome State Fault Refusal :=
  .next (s.deliverAdder a b (fpAdd specConfig a b))

end Sys2Proof.Machine
end

