-- ==== Sys2Proof/Machine/Decoder.lean ====
section
/-! DEFINITION. fp_decoder: SBFP to binary64 (41_decode.md). -/

namespace Sys2Proof.Machine

/-- decode(h): Infinity and NaN, else the exact magnitude M * 2^E with the sign bit applied, zeros included (R76 to
R81). -/
def fpDecode (c : Config) (h : Sbfp) : Binary64 :=
  if sbfpExp h = reservedExponent then
    (if sbfpFrac h = 0 then packBinary64 (sbfpSign h) 2047 0 else c.decNaN h)
  else bits64 (unpack h).sign ((unpack h).mantissa.scale (unpack h).exponent)

/-- DECODE: op = 01, value = x[15:0], r = decode(value) (R54, R55, R76). -/
def execDecode (v : Sbfp) (s : State) : Host.Outcome State Fault Refusal :=
  .next (s.deliverDecoder v (fpDecode specConfig v))

end Sys2Proof.Machine
end

