-- ==== Sys2Proof/Machine/Encoder.lean ====
section
/-! DEFINITION. fp_encoder: binary64 to SBFP (40_encode.md). -/

namespace Sys2Proof.Machine

/-- encode(d): step 0 for a host Infinity or NaN, then steps 1 to 7 on the exact value (R59, R60). -/
def fpEncode (c : Config) (d : Binary64) : Sbfp :=
  if binary64Exp d = 2047 then
    (if binary64Frac d = 0 then c.encInf (binary64Sign d) else c.encNaN d)
  else encodeExact (exact64 d)

/-- ENCODE: op = 00, value = x[63:0], r = zext_64(encode(value)) (R54, R55, R59). -/
def execEncode (v : Binary64) (s : State) : Host.Outcome State Fault Refusal :=
  .next (s.deliverEncoder v (fpEncode specConfig v))

end Sys2Proof.Machine
end

