-- ==== Sys2Proof/Machine/Multiplier.lean ====
section
/-! DEFINITION. fp_multiplier_16bit: SBFP times SBFP (42_multiply.md). -/

namespace Sys2Proof.Machine

/-- The exact product of two finite operands: the signs XORed, the exponents added, the mantissas multiplied (R92,
R93). -/
def exactProduct (a b : Sbfp) : Exact :=
  (((unpack a).mantissa.mul (unpack b).mantissa).scale ((unpack a).exponent + (unpack b).exponent)).withSign
    ((unpack a).sign ^^^ (unpack b).sign)

/-- multiply(a, b): NaN first, then Infinity against zero, then Infinity, then the finite path (R86 to R93, R113). -/
def fpMultiply (c : Config) (a b : Sbfp) : Sbfp :=
  if classOf a = .nan ∨ classOf b = .nan then c.arithNaN
  else if (classOf a).isInf ∨ (classOf b).isInf then
    (if isZero a ∨ isZero b then
      (match c.mulInfZero with
        | .nan => c.arithNaN
        | .zero => 0)
    else pack (sbfpSign a ^^^ sbfpSign b) reservedExponent 0)
  else encodeExact (exactProduct a b)

/-- MUL: op = 10, a = x[15:0], b = y, r = zext_64(multiply(a, b)) (R54, R55, R86). -/
def execMul (a b : Sbfp) (s : State) : Host.Outcome State Fault Refusal :=
  .next (s.deliverMultiplier a b (fpMultiply specConfig a b))

end Sys2Proof.Machine
end

