-- ==== Sys2Proof/WellFormed.lean ====
section
/-! DEFINITION. Well-formedness. Every operand value is legal (R41, R56), so every invocation is well formed; what
can be ill formed is a numeral that is no 82-bit wrapper word (R53, R57). -/

namespace Sys2Proof

/-- Every operand pattern of every operation is legal: no encoding is illegal, reserved or a hint (R41, R56). -/
def Instr.wf : Instr → Bool
  | .encode _ => true
  | .decode _ => true
  | .mul _ _ => true
  | .add _ _ => true

/-- The numeral `w` is a wrapper word: it fits the single 82-bit format (R53, R57). -/
def fitsWrapperWord (w : Nat) : Bool := w < 2 ^ 82

end Sys2Proof
end

