-- ==== Sys2Proof/Decode.lean ====
section
/-! DEFINITION. The operation map of the wrapper (R53 to R55): decoding a tuple, a word or a numeral, the encoder
back, and opcode_table.json's rows. -/

namespace Sys2Proof

/-- The fields of an 82-bit wrapper word: op is bits 81..80, x is bits 79..16, y is bits 15..0 (R53). -/
def splitWord (w : WrapperWord) : Tuple :=
  { op := w.extractLsb' 80 2, x := w.extractLsb' 16 64, y := w.extractLsb' 0 16 }

/-- The concatenation {op, x, y}: op from bit 80, x from bit 16, y from bit 0 (R53). -/
def joinTuple (t : Tuple) : WrapperWord :=
  BitVec.ofNat 82 (t.op.toNat * 2 ^ 80 + t.x.toNat * 2 ^ 16 + t.y.toNat)

/-- The operation map of R55 with the operands of R54. Total: all four values of op are assigned (R56). -/
def decodeTuple (t : Tuple) : Instr :=
  if t.op = 0b00#2 then .encode t.x
  else if t.op = 0b01#2 then .decode (t.x.extractLsb' 0 16)
  else if t.op = 0b10#2 then .mul (t.x.extractLsb' 0 16) t.y
  else .add (t.x.extractLsb' 0 16) t.y

/-- Why a numeral is no invocation. -/
inductive DecodeError where
  /-- The numeral does not fit the 82-bit format, which has no other length (R53, R57). -/
  | widerThanWrapperWord
  deriving DecidableEq, Repr

/-- Decodes a numeral as a wrapper word; a numeral of more than 82 bits is rejected by name. -/
def decodeWord (w : Nat) : Except DecodeError Instr :=
  if fitsWrapperWord w then .ok (decodeTuple (splitWord (BitVec.ofNat 82 w)))
  else .error .widerThanWrapperWord

/-- The value of op that selects an operation (R55). -/
def Instr.opBits : Instr → BitVec 2
  | .encode _ => 0b00#2
  | .decode _ => 0b01#2
  | .mul _ _ => 0b10#2
  | .add _ _ => 0b11#2

/-- The mnemonic of an operation (R55). -/
def Instr.mnemonic : Instr → String
  | .encode _ => "ENCODE"
  | .decode _ => "DECODE"
  | .mul _ _ => "MUL"
  | .add _ _ => "ADD"

/-- The tuple of an invocation, with 0 in the bits the operation ignores (R54; 95_test_vectors.md section 3). -/
def encodeTuple : Instr → Tuple
  | .encode v => { op := 0b00#2, x := v, y := 0 }
  | .decode v => { op := 0b01#2, x := v.setWidth 64, y := 0 }
  | .mul a b => { op := 0b10#2, x := a.setWidth 64, y := b }
  | .add a b => { op := 0b11#2, x := a.setWidth 64, y := b }

/-- The wrapper word of an invocation (R53). -/
def encodeWord (i : Instr) : WrapperWord := joinTuple (encodeTuple i)

/-- opcode_table.json's rows: the mask selects op, bits 81..80 (R55). -/
def opcodeTable : List OpcodeRow :=
  [ { mnemonic := "ENCODE", mask := 0x300000000000000000000, pattern := 0x000000000000000000000 },
    { mnemonic := "DECODE", mask := 0x300000000000000000000, pattern := 0x100000000000000000000 },
    { mnemonic := "MUL", mask := 0x300000000000000000000, pattern := 0x200000000000000000000 },
    { mnemonic := "ADD", mask := 0x300000000000000000000, pattern := 0x300000000000000000000 } ]

/-- The bits of a wrapper word that the operation selected by op reads: op itself, and of x and y the bits that the
step reads from those ports (R53, R54). -/
def readMask (op : BitVec 2) : WrapperWord :=
  joinTuple { op := BitVec.allOnes 2, x := Machine.readMaskX op, y := Machine.readMaskY op }

/-- The instruction the decoder reads from the low `nbits` bits of `w`; `none` where the decoder rejects them. The
wrapper word is one parallel word with no byte order (R29, R53), so its bit numbers are those of opcode_table.json. -/
def decodeTableWord (nbits w : Nat) : Option Instr :=
  match decodeWord (w % 2 ^ nbits) with
  | .ok i => some i
  | .error _ => none

end Sys2Proof
end

