-- ==== Sys2Proof/Machine/Fetch.lean ====
section
/-! DEFINITION. What the wrapper reads from its input ports at an invocation (R24, R31, R54). The core fetches no
instruction: the inputs themselves select the operation (R38). -/

namespace Sys2Proof.Machine

/-- The operand ports, of which only the bits that op selects are read; ignored bits count as 0 (R54). -/
def fetchOperands (s : State) (op : BitVec 2) : Except Refusal Tuple :=
  match s.x.read .x (readMaskX op) with
  | .error e => .error e
  | .ok x =>
    match s.y.read .y (readMaskY op) with
    | .error e => .error e
    | .ok y => .ok { op := op, x := x, y := y }

/-- The input tuple of an invocation: op first, then the operand bits it reads (R24, R32). -/
def fetchTuple (s : State) : Except Refusal Tuple :=
  match s.op.read .op (BitVec.allOnes 2) with
  | .error e => .error e
  | .ok op => fetchOperands s op

end Sys2Proof.Machine
end

