-- ==== Sys2Proof/Machine/Step.lean ====
section
/-! DEFINITION. One step is one invocation of the wrapper on its present inputs (R22, R24, R32). -/

namespace Sys2Proof.Machine

/-- Reads the input ports, selects the operation and applies its unit (R24, R55). A step ends in the next state for
all inputs whose read bits are driven, and in a refusal otherwise (R126, R133). -/
def step (s : State) : Host.Outcome State Fault Refusal :=
  match fetchTuple s with
  | .ok t => exec (decodeTuple t) s
  | .error e => .refused e

/-- The host drives the low `nbits` bits of `w` on the input ports as the wrapper word {op, x, y} (R53, R130); the bits
above `nbits` are 0. -/
def State.withFetchWord (s : State) (nbits w : Nat) : State :=
  s.drive (splitWord (BitVec.ofNat 82 (w % 2 ^ nbits)))

end Sys2Proof.Machine
end

