-- ==== Sys2Proof/Machine/BitForms.lean ====
section
/-! DEFINITION. The spec's tables and the loop-free forms that it derives from the units' rules: the bit-level tables
of the encoder (R70) and the decoder (R83), the special-value tables of the multiplier (R87) and the adder (R99) and
their fixed-width integer datapaths (R97, R109). The machine does not use them; statements say that it agrees with
them. -/

namespace Sys2Proof.Machine

/-- encode(d) from the fields of `d` alone (R70), with step 0 as R60 decides it. -/
def encodeTable (d : Binary64) : Sbfp :=
  if binary64Exp d = 2047 ∧ binary64Frac d = 0 then pack (binary64Sign d) 31 0
  else if binary64Exp d = 2047 then
    pack (binary64Sign d) 31 (if binary64NaNPayload d = 0 then 1 else binary64NaNPayload d)
  else if binary64Exp d = 0 ∧ binary64Frac d = 0 then 0
  else if 1039 ≤ (binary64Exp d).toNat then pack (binary64Sign d) 31 0
  else if 1009 ≤ (binary64Exp d).toNat then
    pack (binary64Sign d) (BitVec.ofNat 5 ((binary64Exp d).toNat - 1008))
      ((binary64Frac d).extractLsb' 42 10)
  else if 999 ≤ (binary64Exp d).toNat then
    pack (binary64Sign d) 0
      (BitVec.ofNat 10 ((2 ^ 52 + (binary64Frac d).toNat) >>> (1051 - (binary64Exp d).toNat)))
  else pack (binary64Sign d) 0 0

/-- The index of the most significant 1 of a nonzero fraction (R83). -/
def leadingOne (f : BitVec 10) : Nat := Nat.log2 f.toNat

/-- decode(h) from the fields of `h` alone (R83), with NaNs as R78 decides them. -/
def decodeTable (h : Sbfp) : Binary64 :=
  if sbfpExp h = 31 ∧ sbfpFrac h = 0 then packBinary64 (sbfpSign h) 2047 0
  else if sbfpExp h = 31 then
    packBinary64 (sbfpSign h) 2047 (BitVec.ofNat 52 (2 ^ 51 + (sbfpFrac h).toNat * 2 ^ 41))
  else if sbfpExp h ≠ 0 then
    packBinary64 (sbfpSign h) (BitVec.ofNat 11 ((sbfpExp h).toNat + 1008))
      (BitVec.ofNat 52 ((sbfpFrac h).toNat * 2 ^ 42))
  else if sbfpFrac h = 0 then packBinary64 (sbfpSign h) 0 0
  else
    packBinary64 (sbfpSign h) (BitVec.ofNat 11 (leadingOne (sbfpFrac h) + 999))
      (BitVec.ofNat 52 (((sbfpFrac h).toNat - 2 ^ leadingOne (sbfpFrac h)) <<< (52 - leadingOne (sbfpFrac h))))

/-- The special-value table of the multiplier, row by row; `none` where the finite path decides (R87). -/
def mulTable (a b : Sbfp) : Option Sbfp :=
  match classOf a, classOf b with
  | .nan, _ => some 0x7C01
  | _, .nan => some 0x7C01
  | .posInf, .posInf => some 0x7C00
  | .posInf, .negInf => some 0xFC00
  | .negInf, .posInf => some 0xFC00
  | .negInf, .negInf => some 0x7C00
  | .posInf, .finite => some (if isZero b then 0x7C01 else pack (sbfpSign b) 31 0)
  | .negInf, .finite => some (if isZero b then 0x7C01 else pack (1 ^^^ sbfpSign b) 31 0)
  | .finite, .posInf => some (if isZero a then 0x7C01 else pack (sbfpSign a) 31 0)
  | .finite, .negInf => some (if isZero a then 0x7C01 else pack (1 ^^^ sbfpSign a) 31 0)
  | .finite, .finite => none

/-- The special-value table of the adder, row by row; `none` where the finite path decides (R99). -/
def addTable (ca cb : SbfpClass) : Option Sbfp :=
  match ca, cb with
  | .nan, _ => some 0x7C01
  | _, .nan => some 0x7C01
  | .posInf, .posInf => some 0x7C00
  | .posInf, .negInf => some 0x7C01
  | .negInf, .posInf => some 0x7C01
  | .negInf, .negInf => some 0xFC00
  | .posInf, .finite => some 0x7C00
  | .negInf, .finite => some 0xFC00
  | .finite, .posInf => some 0x7C00
  | .finite, .negInf => some 0xFC00
  | .finite, .finite => none

/-- The 11-bit significand, the hidden bit above the fraction (R51). -/
def significand11 (h : Sbfp) : BitVec 11 :=
  BitVec.ofNat 11 ((if sbfpExp h = 0 then 0 else 1) * 2 ^ 10 + (sbfpFrac h).toNat)

/-- The unbiased exponent as a 6-bit two's-complement field (R51). -/
def exponent6 (h : Sbfp) : BitVec 6 :=
  if sbfpExp h = 0 then -14 else (sbfpExp h).setWidth 6 - 15

/-- P, the 22-bit product of the significands (R97). -/
def productField (a b : Sbfp) : BitVec 22 := (significand11 a).setWidth 22 * (significand11 b).setWidth 22

/-- E1 + E2 in 6 bits of two's complement (R97). -/
def exponentSum6 (a b : Sbfp) : BitVec 6 := exponent6 a + exponent6 b

/-- The finite path of the multiplier in fixed-width integers: encodeQ of ±P * 2^K with K = E1 + E2 - 20 (R97). -/
def mulDatapath (a b : Sbfp) : Sbfp :=
  encodeExact
    (Magnitude.withSign { num := (productField a b).toNat, exp := (exponentSum6 a b).toInt - 20 }
      (sbfpSign a ^^^ sbfpSign b))

/-- Em, the smaller unbiased exponent (R104). -/
def minExponent6 (a b : Sbfp) : BitVec 6 := if (exponent6 a).sle (exponent6 b) then exponent6 a else exponent6 b

/-- Qi, the 40-bit significand shifted up to the smaller exponent (R109). -/
def alignedField (h : Sbfp) (em : BitVec 6) : BitVec 40 :=
  (significand11 h).setWidth 40 <<< ((exponent6 h).toInt - em.toInt).toNat

/-- ±Qi in 42 bits of two's complement (R109). -/
def signedField (h : Sbfp) (em : BitVec 6) : BitVec 42 :=
  if sbfpSign h = 1 then -(alignedField h em).setWidth 42 else (alignedField h em).setWidth 42

/-- T, the 42-bit sum of the signed aligned significands (R109). -/
def sumField (a b : Sbfp) : BitVec 42 :=
  signedField a (minExponent6 a b) + signedField b (minExponent6 a b)

/-- The finite path of the adder in fixed-width integers: encodeQ of T * 2^(Em - 10) (R109). -/
def addDatapath (a b : Sbfp) : Sbfp :=
  encodeExact { num := (sumField a b).toInt, exp := (minExponent6 a b).toInt - 10 }

end Sys2Proof.Machine
end

