-- ==== Sys2Proof/Machine/Flags.lean ====
section
/-! DEFINITION. The core has no flags (R14): no flag is computed and none is stored. What stands here are the
conditions of R110 as predicates of an invocation, so that statements can say what the result encoding holds in place
of each. DESIGN CHOICE (notes/assumptions/19.md): how each condition is read off an invocation. -/

namespace Sys2Proof.Machine

/-- The conditions that R110 lists. -/
inductive Condition where
  | overflow
  | underflow
  | inexact
  | invalid
  | divideByZero
  | hostSpecial
  deriving DecidableEq, Repr

/-- The exact value that an invocation re-encodes as SBFP, where it has one (R69, R93, R106). -/
def exactResult : Instr → Option Exact
  | .encode v => if binary64Exp v = 2047 then none else some (exact64 v)
  | .decode _ => none
  | .mul a b => if classOf a = .finite ∧ classOf b = .finite then some (exactProduct a b) else none
  | .add a b => if classOf a = .finite ∧ classOf b = .finite then some (exactSum a b) else none

/-- Two exact numbers are the same rational: they agree after scaling to the smaller exponent. -/
def sameValue (v w : Exact) : Bool :=
  v.num * 2 ^ (v.exp - min v.exp w.exp).toNat == w.num * 2 ^ (w.exp - min v.exp w.exp).toNat

/-- An operand combination that R110 calls invalid: a NaN operand to MUL or ADD, Infinity times zero, Infinities of
opposite signs added. -/
def invalidOperands : Instr → Bool
  | .encode _ => false
  | .decode _ => false
  | .mul a b =>
    classOf a = .nan || classOf b = .nan
      || ((classOf a).isInf && isZero b) || (isZero a && (classOf b).isInf)
  | .add a b =>
    classOf a = .nan || classOf b = .nan
      || ((classOf a).isInf && (classOf b).isInf && classOf a != classOf b)

/-- A host Infinity or NaN at the encoder's input (R60). -/
def hostSpecialOperand : Instr → Bool
  | .encode v => binary64Exp v = 2047
  | .decode _ => false
  | .mul _ _ => false
  | .add _ _ => false

/-- The exact value of an invocation reaches 2^16 (R62). -/
def overflowing (v : Exact) : Bool := overflowThreshold ≤ v.magnitude.floor

/-- The exact value of an invocation is nonzero and below 2^-24 (R74). -/
def underflowing (v : Exact) : Bool := v.num != 0 && (v.magnitude.scale 24).floor < 1

/-- The re-encoded value is finite and a fraction remainder was discarded (R66). -/
def truncating (v : Exact) : Bool :=
  classOf (encodeExact v) = .finite && !sameValue (exact16 (encodeExact v)) v

/-- The exact value of an invocation is finite and below the overflow threshold, and an Infinity is returned all the
same: what a division by zero would do (R110, log entry 19). -/
def infiniteWithoutOverflow (v : Exact) : Bool := (classOf (encodeExact v)).isInf && !overflowing v

/-- The invocation meets the condition in R110's sense. Nothing in the core records it (R14, R111). -/
def Condition.holds (c : Condition) (i : Instr) : Bool :=
  match c with
  | .overflow => (exactResult i).any overflowing
  | .underflow => (exactResult i).any underflowing
  | .inexact => (exactResult i).any truncating
  | .invalid => invalidOperands i
  | .divideByZero => (exactResult i).any infiniteWithoutOverflow
  | .hostSpecial => hostSpecialOperand i

end Sys2Proof.Machine
end

