-- ==== Sys2Proof/Machine/Instances.lean ====
section
/-! DEFINITION. Several instances used at the same time, in any interleaving (R25, R35). -/

namespace Sys2Proof.Machine

/-- One invocation of instance `k`. The instances share nothing (R25). -/
def stepInstance {n : Nat} (k : Fin n) (cores : Vector State n) :
    Host.Outcome (Vector State n) Fault Refusal :=
  match step cores[k] with
  | .next s => .next (cores.set k s)
  | .refused e => .refused e

end Sys2Proof.Machine
end

