-- ==== Sys2Proof/Machine/Rational.lean ====
section
/-! DEFINITION. The rules' own rational forms over ℚ: real (R43), real64 (R47) and encodeQ (R69). The machine computes
with exact pairs of integers instead (Machine/Exact.lean); statements compare the two. -/

namespace Sys2Proof.Machine

/-- The rational that a magnitude denotes. -/
def Magnitude.toRat (m : Magnitude) : ℚ := (m.num : ℚ) * 2 ^ m.exp

/-- The rational that an exact number denotes. -/
def Exact.toRat (v : Exact) : ℚ := (v.num : ℚ) * 2 ^ v.exp

/-- real(h), as R43 writes it; meant for finite patterns. -/
def real (h : Sbfp) : ℚ :=
  if sbfpExp h = 0 then
    (-1) ^ (sbfpSign h).toNat * ((sbfpFrac h).toNat / 2 ^ 10) * 2 ^ ((1 : ℤ) - 15)
  else
    (-1) ^ (sbfpSign h).toNat * (1 + (sbfpFrac h).toNat / 2 ^ 10) * 2 ^ (((sbfpExp h).toNat : ℤ) - 15)

/-- real64(d), as R47 writes it; meant for finite patterns. -/
def real64 (d : Binary64) : ℚ :=
  if binary64Exp d = 0 then
    (-1) ^ (binary64Sign d).toNat * (binary64Frac d).toNat * 2 ^ (-1074 : ℤ)
  else
    (-1) ^ (binary64Sign d).toNat * (1 + (binary64Frac d).toNat / 2 ^ 52)
      * 2 ^ (((binary64Exp d).toNat : ℤ) - 1023)

/-- encodeQ(v), as R69 writes it: saturate, denormal or zero, else truncate the fraction at the exponent E with
2^E ≤ |v| < 2^(E+1). -/
def encodeQ (v : ℚ) : Sbfp :=
  if 2 ^ 16 ≤ |v| then pack (if v < 0 then 1 else 0) 31 0
  else if |v| < 2 ^ (-14 : ℤ) then pack (if v < 0 then 1 else 0) 0 (BitVec.ofNat 10 ⌊|v| * 2 ^ 24⌋₊)
  else
    pack (if v < 0 then 1 else 0) (BitVec.ofInt 5 (Int.log 2 |v| + 15))
      (BitVec.ofNat 10 ⌊(|v| / 2 ^ Int.log 2 |v| - 1) * 2 ^ 10⌋₊)

end Sys2Proof.Machine
end

