-- ==== Sys2Proof/Safety.lean ====
section
/-! DEFINITION. What a good state of the core is and when an invocation has driven inputs, in the words the statements
use. -/

namespace Sys2Proof.Machine

/-- Every unit's output is the function of that unit's inputs (R22, R26, R128). -/
def Settled (s : State) : Prop :=
  s.encoder.result = fpEncode specConfig s.encoder.value ∧
  s.decoder.result = fpDecode specConfig s.decoder.value ∧
  s.multiplier.c = fpMultiply specConfig s.multiplier.a s.multiplier.b ∧
  s.adder.c = fpAdd specConfig s.adder.a s.adder.b

/-- The wrapper's output for an input tuple (R24, R54). -/
def wrapperResult (t : Tuple) : BitVec 64 :=
  if t.op = 0b00#2 then (fpEncode specConfig t.x).setWidth 64
  else if t.op = 0b01#2 then fpDecode specConfig (t.x.extractLsb' 0 16)
  else if t.op = 0b10#2 then (fpMultiply specConfig (t.x.extractLsb' 0 16) t.y).setWidth 64
  else (fpAdd specConfig (t.x.extractLsb' 0 16) t.y).setWidth 64

/-- The host drives the bits of the port that are in the mask, and their values are those of `v` (R130). -/
def Drives {n : Nat} (p : Input n) (mask v : BitVec n) : Prop :=
  mask = 0 ∨ ∃ value driven, p = .host value driven ∧ driven &&& mask = mask ∧ value &&& mask = v &&& mask

/-- The host drives every input bit that the operation selected by `t.op` reads, with the values of `t`. The bits it
ignores may be anything, undriven and wired to the output among them (R24, R54, R126). -/
def DrivesTuple (s : State) (t : Tuple) : Prop :=
  Drives s.op (BitVec.allOnes 2) t.op ∧ Drives s.x (readMaskX t.op) t.x ∧ Drives s.y (readMaskY t.op) t.y

end Sys2Proof.Machine
end

