-- ==== Sys2Proof/Certificates/Slice0/Obligations.lean ====
section
/-! DEFINITION. The statements for the provers. A statement of what an operation returns gives the whole next state as
an explicit update of the state before, so it is that operation's completion statement and its frame at once: the
input signals, the empty core state and the ports of the three units that the operation does not invoke stand as they
were (R33; that the wrapper drives nothing into those units is log entry 2). Where a rule is marked in the spec as
derived or as a decision, or a clause rests on an entry of the assumption log, the docstring says so. -/

open Sys2Proof Sys2Proof.Machine

/-! ### Encoding and the operation map -/

/-- Decoding the wrapper word of any invocation gives it back, for every operand, whether the word is taken at the
table's 82 bits or in 11 whole bytes (R53 to R56; the wrapper is the spec's decision D4; that 11 bytes hold the same
word with its top 6 bits 0 is the model's choice, log entry 10; the zeros in the ignored bits are log entry 18). -/
def Obligations.DecodeOfEncodeIsIdentity : Prop :=
  ∀ i : Instr, i.wf = true →
    decodeWord (encodeWord i).toNat = .ok i ∧
    decodeTableWord 82 (encodeWord i).toNat = some i ∧
    decodeTableWord 88 (encodeWord i).toNat = some i

/-- Encoding what an 82-bit word decodes to gives the word back with its ignored bits cleared and every bit that the
operation reads kept, op among them (R53 to R55, decision D4; the cleared bits are log entry 18). -/
def Obligations.EncodeOfDecodeClearsIgnoredBits : Prop :=
  ∀ (w : Nat) (i : Instr), decodeWord w = .ok i →
    (encodeWord i).toNat = w &&& (readMask i.opBits).toNat

/-- Every 82-bit word lies in exactly one row of opcode_table.json, the row of the instruction that it decodes to
(R55, R56, decision D4). -/
def Obligations.OpcodeRowsPartitionWords : Prop :=
  ∀ w : WrapperWord, ∃ row ∈ opcodeTable,
    w &&& row.mask = row.pattern ∧
    row.mnemonic = (decodeTuple (splitWord w)).mnemonic ∧
    ∀ other ∈ opcodeTable, w &&& other.mask = other.pattern → other = row

/-- Four wrapper words written out from R53 to R55 and 95_test_vectors.md section 2.5 (decision D4), ignored bits set,
decode to the invocations they stand for; and a numeral of more than 82 bits is rejected by name, which is the model's
choice (log entry 10). -/
def Obligations.SampleWordsDecode : Prop :=
  decodeWord 0x03FF0000000000000FFFF = .ok (.encode 0x3FF0000000000000) ∧
  decodeWord 0x1FFFFFFFFFFFF3C00ABCD = .ok (.decode 0x3C00) ∧
  decodeWord 0x212345678000040004200 = .ok (.mul 0x4000 0x4200) ∧
  decodeWord 0x30000DEAD00003C003C00 = .ok (.add 0x3C00 0x3C00) ∧
  ∀ w, 2 ^ 82 ≤ w → decodeWord w = .error .widerThanWrapperWord

/-! ### The step -/

/-- Where the host drives every bit that the selected operation reads, a step is exec of the decoded instruction at
that same state; bits the operation ignores may be undriven or wired to the output (R24, R54, R55; that an undriven
ignored bit does not matter is log entry 5, that a wired ignored port does not is log entry 7). -/
def Obligations.StepRunsDecodedInstruction : Prop :=
  ∀ (s : State) (t : Tuple), DrivesTuple s t → step s = exec (decodeTuple t) s

/-- With a word placed on the input ports, the next step is exec of the instruction that the decoder reads from that
word (R24, R53; the placing is log entry 4, numerals that are no 82-bit word are log entry 10). -/
def Obligations.StepAfterPlacingWord : Prop :=
  ∀ (s : State) (nbits w : Nat) (i : Instr), decodeTableWord nbits w = some i →
    step (s.withFetchWord nbits w) = exec i (s.withFetchWord nbits w)

/-- A step answers a next state exactly when every bit that the selected operation reads is driven and none of the
ports it reads is wired to the output, and it is refused otherwise: it never faults (R24, R54, R126, R133, decisions
D15 and D19; that undriven ignored bits do not matter is log entry 5, that wired ignored ports do not is log
entry 7). -/
def Obligations.StepCompletesExactlyOnDrivenInputs : Prop :=
  ∀ s : State,
    ((∃ s', step s = .next s') ↔ ∃ t, DrivesTuple s t) ∧
    ((¬ ∃ t, DrivesTuple s t) → ∃ e, step s = .refused e)

/-- An input bit that the invocation reads and that has no defined 0 or 1 value makes the model refuse the invocation,
naming the first such port in the order op, x, y (R126, decision D15; the order is log entry 6). -/
def Obligations.UndrivenInputIsRefused : Prop :=
  ∀ s : State,
    (∀ v d, s.op = .host v d → d ≠ BitVec.allOnes 2 → step s = .refused (.undrivenInput .op)) ∧
    (∀ o v d, Drives s.op (BitVec.allOnes 2) o → s.x = .host v d → d &&& readMaskX o ≠ readMaskX o →
      step s = .refused (.undrivenInput .x)) ∧
    (∀ o x v d, Drives s.op (BitVec.allOnes 2) o → Drives s.x (readMaskX o) x → s.y = .host v d →
      d &&& readMaskY o ≠ readMaskY o → step s = .refused (.undrivenInput .y))

/-- An input port that the invocation reads and that is wired combinationally to the invocation's own output makes the
model refuse it; a wired `y` does not stop ENCODE or DECODE, which do not read it (R133, decision D19, U11; the order
of the ports is log entry 6, the ignored port log entry 7). -/
def Obligations.OwnOutputLoopIsRefused : Prop :=
  ∀ s : State,
    (s.op = .ownOutput → step s = .refused (.combinationalLoop .op)) ∧
    (∀ o, Drives s.op (BitVec.allOnes 2) o → s.x = .ownOutput → step s = .refused (.combinationalLoop .x)) ∧
    (∀ o x, Drives s.op (BitVec.allOnes 2) o → Drives s.x (readMaskX o) x → s.y = .ownOutput →
      (o = 0b10 ∨ o = 0b11) → step s = .refused (.combinationalLoop .y)) ∧
    (∀ o x, Drives s.op (BitVec.allOnes 2) o → Drives s.x (readMaskX o) x → s.y = .ownOutput →
      (o = 0b00 ∨ o = 0b01) → ∃ s', step s = .next s')

/-- Every invocation completes with a next state, for every operand and in every state (R22, R110, R126). -/
def Obligations.EveryInvocationCompletes : Prop :=
  ∀ (i : Instr) (s : State), ∃ s', exec i s = .next s'

/-- What each operation leaves unchanged: the input signals, the core's (empty) own state and every port of the units it
does not invoke; ENCODE, MUL and ADD leave r[63:16] zero (R24, R33, R54; that the wrapper drives nothing into the
units it does not select is log entry 2). -/
def Obligations.InvocationFrame : Prop :=
  ∀ (i : Instr) (s s' : State), exec i s = .next s' →
    (s'.arch = s.arch ∧ s'.op = s.op ∧ s'.x = s.x ∧ s'.y = s.y) ∧
    (i.opBits ≠ 0b00 → s'.encoder = s.encoder) ∧
    (i.opBits ≠ 0b01 → s'.decoder = s.decoder) ∧
    (i.opBits ≠ 0b10 → s'.multiplier = s.multiplier) ∧
    (i.opBits ≠ 0b11 → s'.adder = s.adder) ∧
    (i.opBits ≠ 0b01 → s'.r.extractLsb' 16 48 = 0)

/-- An invocation has no side effect: it leaves its input ports and every unit but the invoked one as they were, and
applying it any number of times to the same inputs gives the same state as applying it once (R33; that the wrapper
drives nothing into the units it does not select is log entry 2, that the inputs stay as they are between the steps of
a run is log entry 4, the read bits of DrivesTuple are log entries 5 and 7). -/
def Obligations.InvocationIsIdempotent : Prop :=
  ∀ (s s' : State), step s = .next s' →
    (s'.op = s.op ∧ s'.x = s.x ∧ s'.y = s.y) ∧
    (∃ t, DrivesTuple s t ∧
      (t.op ≠ 0b00 → s'.encoder = s.encoder) ∧ (t.op ≠ 0b01 → s'.decoder = s.decoder) ∧
      (t.op ≠ 0b10 → s'.multiplier = s.multiplier) ∧ (t.op ≠ 0b11 → s'.adder = s.adder)) ∧
    ∀ k : Nat, Host.Core.run core (k + 1) s = .next s'

/-- The output is a function of op and the operand bits that op reads: on any two cores, whatever ran on them before
and whatever stands on their other bits, equal read bits give equal outputs (R22, R24, R35; that the other bits may be
undriven or wired to the output is log entries 5 and 7). -/
def Obligations.ResultDependsOnReadBitsOnly : Prop :=
  ∀ (s₁ s₂ s₁' s₂' : State) (t₁ t₂ : Tuple), DrivesTuple s₁ t₁ → DrivesTuple s₂ t₂ →
    t₁.op = t₂.op → t₁.x &&& readMaskX t₁.op = t₂.x &&& readMaskX t₂.op →
    t₁.y &&& readMaskY t₁.op = t₂.y &&& readMaskY t₂.op →
    step s₁ = .next s₁' → step s₂ = .next s₂' → s₁'.r = s₂'.r

/-- With any number of instances, two invocations on different instances give the same states in either order, each
instance ends as its own step alone leaves it with the output that its own inputs give, and no other instance changes
(R25, R35; that instances are a vector of cores stepped one at a time, with simultaneous use read as either order, is
log entry 16; the read bits of DrivesTuple are log entries 5 and 7). -/
def Obligations.InstancesAreIndependent : Prop :=
  ∀ (n : Nat) (j k : Fin n) (cores cores₁ cores₂ : Vector State n), j ≠ k →
    stepInstance j cores = .next cores₁ → stepInstance k cores₁ = .next cores₂ →
    step cores[j] = .next cores₂[j] ∧ step cores[k] = .next cores₂[k] ∧
    (∀ t, DrivesTuple cores[j] t → cores₂[j].r = wrapperResult t) ∧
    (∀ t, DrivesTuple cores[k] t → cores₂[k].r = wrapperResult t) ∧
    (∀ i : Fin n, i ≠ j → i ≠ k → cores₂[i] = cores[i]) ∧
    ∃ cores₃, stepInstance k cores = .next cores₃ ∧ stepInstance j cores₃ = .next cores₂

/-- Every unit's output stays the function of that unit's inputs, from every state in which it is so, and after the
step r is the function of the wrapper's present inputs (R22, R26, R128; that the units a step does not select keep
their signals is log entry 2, the read bits of DrivesTuple are log entries 5 and 7). -/
def Obligations.StepKeepsOutputsSettled : Prop :=
  ∀ s s' : State, Settled s → step s = .next s' →
    Settled s' ∧ ∀ t, DrivesTuple s' t → s'.r = wrapperResult t

/-- The state after power-up that the model chose (log entry 3) has every output settled on its inputs, which are all
driven to 0, and every output is 0 (R26, R128). -/
def Obligations.ResetIsSettled : Prop :=
  Settled State.reset ∧ DrivesTuple State.reset { op := 0, x := 0, y := 0 } ∧
  State.reset.r = wrapperResult { op := 0, x := 0, y := 0 } ∧
  State.reset.encoder.result = 0 ∧ State.reset.decoder.result = 0 ∧
  State.reset.multiplier.c = 0 ∧ State.reset.adder.c = 0 ∧ State.reset.r = 0

/-! ### The formats -/

/-- The pattern ranges of R42's kinds (marked derived there): Infinities, NaNs, normalized, denormalized, zeros. -/
def Obligations.KindsArePatternRanges : Prop :=
  ∀ h : Sbfp,
    (sbfpKind h = .infinity ↔ h = 0x7C00 ∨ h = 0xFC00) ∧
    (sbfpKind h = .nan ↔ (0x7C01 ≤ h ∧ h ≤ 0x7FFF) ∨ 0xFC01 ≤ h) ∧
    (sbfpKind h = .normalized ↔ (0x0400 ≤ h ∧ h ≤ 0x7BFF) ∨ (0x8400 ≤ h ∧ h ≤ 0xFBFF)) ∧
    (sbfpKind h = .denormalized ↔ (0x0001 ≤ h ∧ h ≤ 0x03FF) ∨ (0x8001 ≤ h ∧ h ≤ 0x83FF)) ∧
    (sbfpKind h = .zero ↔ h = 0x0000 ∨ h = 0x8000)

/-- R45's facts (marked derived there): finite values are integer multiples of 2^-24 of magnitude at most 65504; the
patterns without sign rise strictly with the unsigned value and those with sign fall; two finite patterns have the same
value only if they are equal or both zeros. -/
def Obligations.FiniteValuesAreOrdered : Prop :=
  (∀ h : Sbfp, classOf h = .finite →
    (∃ k : ℤ, real h = k * 2 ^ (-24 : ℤ)) ∧ |real h| ≤ 65504) ∧
  (∀ a b : Sbfp, classOf a = .finite → classOf b = .finite → sbfpSign a = 0 → sbfpSign b = 0 →
    (a < b ↔ real a < real b)) ∧
  (∀ a b : Sbfp, classOf a = .finite → classOf b = .finite → sbfpSign a = 1 → sbfpSign b = 1 →
    (a < b ↔ real b < real a)) ∧
  (∀ a b : Sbfp, classOf a = .finite → classOf b = .finite → real a = real b →
    a = b ∨ (isZero a = true ∧ isZero b = true))

/-! ### ENCODE -/

/-- ENCODE gives, for all 2^64 inputs, the pattern of the bit-level table of R70 (marked derived there; its rows for
host Infinities and NaNs are decisions D6 and D7), although the machine computes it by the steps of R60 to R67. -/
def Obligations.EncodeMatchesBitTable : Prop :=
  ∀ (d : Binary64) (s : State),
    exec (.encode d) s = .next { s with
      encoder := { value := d, result := encodeTable d }, r := (encodeTable d).setWidth 64 }

/-- ENCODE of a finite binary64 is encodeQ of its exact rational value (R69, marked derived there), and encodeQ of 0 is
0x0000. -/
def Obligations.EncodeIsEncodeQ : Prop :=
  (∀ (d : Binary64) (s : State), binary64Exp d ≠ 2047 →
    exec (.encode d) s = .next { s with
      encoder := { value := d, result := encodeQ (real64 d) }, r := (encodeQ (real64 d)).setWidth 64 }) ∧
  encodeQ 0 = 0x0000

/-- A host Infinity gives the SBFP Infinity of its sign; a host NaN gives the SBFP NaN with its sign and fraction bits
50..41, or 1 where those are 0 (R60; the spec's decisions D6 and D7). -/
def Obligations.EncodeHostInfinityAndNaN : Prop :=
  ∀ (d : Binary64) (s : State), binary64Exp d = 2047 → ∃ c : Sbfp,
    exec (.encode d) s = .next { s with encoder := { value := d, result := c }, r := c.setWidth 64 } ∧
    sbfpSign c = binary64Sign d ∧ sbfpExp c = 31 ∧
    (binary64Frac d = 0 → sbfpFrac c = 0) ∧
    (binary64Frac d ≠ 0 → classOf c = .nan ∧
      (d.extractLsb' 41 10 ≠ 0 → sbfpFrac c = d.extractLsb' 41 10) ∧
      (d.extractLsb' 41 10 = 0 → sbfpFrac c = 1))

/-- A finite input's sign is recorded as 1 exactly when its value is negative, and both zeros give 0x0000 (R61); the
other 15 bits are those of encodeQ of its magnitude, which rests on R69 (marked derived there). -/
def Obligations.EncodeRecordsSign : Prop :=
  (∀ (d : Binary64) (s : State), binary64Exp d ≠ 2047 → ∃ c : Sbfp,
    exec (.encode d) s = .next { s with encoder := { value := d, result := c }, r := c.setWidth 64 } ∧
    sbfpSign c = (if real64 d < 0 then 1 else 0) ∧
    c.extractLsb' 0 15 = (encodeQ |real64 d|).extractLsb' 0 15) ∧
  (∀ (d : Binary64) (s : State), d = 0x0000000000000000 ∨ d = 0x8000000000000000 →
    exec (.encode d) s = .next { s with encoder := { value := d, result := 0x0000 }, r := 0 })

/-- R62: a finite input whose truncated integer part reaches 65536, which is so exactly when its magnitude does, gives
the Infinity of its sign. -/
def Obligations.EncodeSaturates : Prop :=
  ∀ (d : Binary64) (s : State), binary64Exp d ≠ 2047 →
    (65536 ≤ ⌊|real64 d|⌋₊ ↔ 65536 ≤ |real64 d|) ∧
    (65536 ≤ ⌊|real64 d|⌋₊ →
      exec (.encode d) s = .next { s with
        encoder := { value := d, result := if real64 d < 0 then 0xFC00 else 0x7C00 }
        r := if real64 d < 0 then 0xFC00 else 0x7C00 })

/-- R63: a finite input takes the denormal path, and gets exponent field 0, exactly when its integer part is 0 and it is
below 2^-14, which is so exactly when it is below 2^-14; the input 2^-14 itself gives 0x0400. -/
def Obligations.EncodeDenormalThreshold : Prop :=
  (∀ (d : Binary64) (s : State), binary64Exp d ≠ 2047 → ∃ c : Sbfp,
    exec (.encode d) s = .next { s with encoder := { value := d, result := c }, r := c.setWidth 64 } ∧
    (sbfpExp c = 0 ↔ ⌊|real64 d|⌋₊ = 0 ∧ |real64 d| < 2 ^ (-14 : ℤ)) ∧
    ((⌊|real64 d|⌋₊ = 0 ∧ |real64 d| < 2 ^ (-14 : ℤ)) ↔ |real64 d| < 2 ^ (-14 : ℤ))) ∧
  (real64 0x3F10000000000000 = 2 ^ (-14 : ℤ) ∧
    ∀ s : State, exec (.encode 0x3F10000000000000) s = .next { s with
      encoder := { value := 0x3F10000000000000, result := 0x0400 }, r := 0x0400 })

/-- R74: a finite nonzero input below 2^-24 gives 0x0000 if positive and 0x8000 if negative; the smallest binary64
subnormal and the pattern of -1e-30 are such inputs. -/
def Obligations.EncodeUnderflowsToSignedZero : Prop :=
  (∀ (d : Binary64) (s : State), binary64Exp d ≠ 2047 → real64 d ≠ 0 → |real64 d| < 2 ^ (-24 : ℤ) →
    exec (.encode d) s = .next { s with
      encoder := { value := d, result := if real64 d < 0 then 0x8000 else 0x0000 }
      r := if real64 d < 0 then 0x8000 else 0x0000 }) ∧
  (∀ d : Binary64, d = 0x0000000000000001 ∨ d = 0xB9B4484BFEEBC2A0 →
    binary64Exp d ≠ 2047 ∧ real64 d ≠ 0 ∧ |real64 d| < 2 ^ (-24 : ℤ)) ∧
  0 < real64 0x0000000000000001 ∧ real64 0xB9B4484BFEEBC2A0 < 0

/-- ENCODE gives an Infinity exactly for magnitudes of at least 65536 and for Infinities, and gives the largest finite
magnitude for all of [65504, 65536) (R73, marked derived there). -/
def Obligations.EncodeSaturationNeighbourhood : Prop :=
  ∀ (d : Binary64) (s : State), ∃ c : Sbfp,
    exec (.encode d) s = .next { s with encoder := { value := d, result := c }, r := c.setWidth 64 } ∧
    ((c = 0x7C00 ∨ c = 0xFC00) ↔
      (binary64Exp d = 2047 ∧ binary64Frac d = 0) ∨ (binary64Exp d ≠ 2047 ∧ 65536 ≤ |real64 d|)) ∧
    (binary64Exp d ≠ 2047 → 65504 ≤ |real64 d| → |real64 d| < 65536 →
      c = if real64 d < 0 then 0xFBFF else 0x7BFF)

/-- ENCODE truncates: a finite input below 65536 in magnitude gives the largest finite SBFP magnitude not above it, with
an error below 2^(E-10) on the normalized path, below 2^-24 on the denormal path and relatively below 2^-10 on the
normalized path, and decoding the result gives exactly that value (R72, marked derived there). -/
def Obligations.EncodeTruncatesTowardZero : Prop :=
  ∀ (d : Binary64) (s : State), binary64Exp d ≠ 2047 → |real64 d| < 65536 → ∃ (c : Sbfp) (w : Binary64),
    exec (.encode d) s = .next { s with encoder := { value := d, result := c }, r := c.setWidth 64 } ∧
    exec (.decode c) s = .next { s with decoder := { value := c, result := w }, r := w } ∧
    classOf c = .finite ∧ real64 w = real c ∧
    |real c| ≤ |real64 d| ∧ (real c ≠ 0 → (real c < 0 ↔ real64 d < 0)) ∧
    (∀ h : Sbfp, classOf h = .finite → |real h| ≤ |real64 d| → |real h| ≤ |real c|) ∧
    (2 ^ (-14 : ℤ) ≤ |real64 d| →
      |real64 d| - |real c| < 2 ^ (Int.log 2 |real64 d| - 10) ∧
      |real64 d| - |real c| < |real64 d| * 2 ^ (-10 : ℤ)) ∧
    (|real64 d| < 2 ^ (-14 : ℤ) → |real64 d| - |real c| < 2 ^ (-24 : ℤ))

/-- Negating a nonzero finite input flips the sign bit of the result and no other bit, saturated and underflowed inputs
included (R75; the extension to them is marked derived there). -/
def Obligations.EncodeNegationFlipsSign : Prop :=
  ∀ (d : Binary64) (s : State), binary64Exp d ≠ 2047 → real64 d ≠ 0 → ∃ c : Sbfp,
    exec (.encode d) s = .next { s with encoder := { value := d, result := c }, r := c.setWidth 64 } ∧
    exec (.encode (d ^^^ 0x8000000000000000)) s = .next { s with
      encoder := { value := d ^^^ 0x8000000000000000, result := c ^^^ 0x8000 }
      r := (c ^^^ 0x8000).setWidth 64 }

/-- Every SBFP pattern survives DECODE then ENCODE, NaNs with their sign and fraction included, except 0x8000, which
becomes 0x0000 (R75, marked derived there, with decisions D7, D8 and D12). -/
def Obligations.SbfpRoundTripsThroughBinary64 : Prop :=
  ∀ (h : Sbfp) (s : State), ∃ d : Binary64,
    exec (.decode h) s = .next { s with decoder := { value := h, result := d }, r := d } ∧
    exec (.encode d) { s with decoder := { value := h, result := d }, r := d } = .next { s with
      decoder := { value := h, result := d }
      encoder := { value := d, result := if h = 0x8000 then 0x0000 else h }
      r := (if h = 0x8000 then 0x0000 else h).setWidth 64 }

/-! ### DECODE -/

/-- DECODE gives, for all 2^16 inputs, the pattern of the bit-level table of R83 (marked derived there; its NaN row is
decision D8, the sign of its zeros decision D12), although the machine computes it by the steps of R77 to R81. -/
def Obligations.DecodeMatchesBitTable : Prop :=
  ∀ (h : Sbfp) (s : State),
    exec (.decode h) s = .next { s with
      decoder := { value := h, result := decodeTable h }, r := decodeTable h }

/-- DECODE of a finite pattern is the one binary64 pattern with its sign bit and its exact value, and it is a zero or a
normal, never a subnormal (R80 to R82 and R84, marked derived there; the sign of a zero is decision D12). -/
def Obligations.DecodeIsExactAndUnique : Prop :=
  ∀ (h : Sbfp) (s : State), classOf h = .finite → ∃ d : Binary64,
    exec (.decode h) s = .next { s with decoder := { value := h, result := d }, r := d } ∧
    (binary64Kind d = .zero ∨ binary64Kind d = .normal) ∧
    binary64Sign d = sbfpSign h ∧ real64 d = real h ∧
    ∀ d' : Binary64, binary64Exp d' ≠ 2047 → binary64Sign d' = sbfpSign h → real64 d' = real h → d' = d

/-- R85: 0x7C00 decodes to +Infinity and 0xFC00 to −Infinity. -/
def Obligations.DecodeInfinities : Prop :=
  ∀ s : State,
    exec (.decode 0x7C00) s = .next { s with
      decoder := { value := 0x7C00, result := 0x7FF0000000000000 }, r := 0x7FF0000000000000 } ∧
    exec (.decode 0xFC00) s = .next { s with
      decoder := { value := 0xFC00, result := 0xFFF0000000000000 }, r := 0xFFF0000000000000 }

/-- An SBFP NaN decodes to the quiet binary64 NaN with its sign, its fraction in bits 50..41 and zeros below (R78; the
pattern is the spec's decision D8). -/
def Obligations.DecodeNaNIsQuietAndCarried : Prop :=
  ∀ (h : Sbfp) (s : State), classOf h = .nan → ∃ d : Binary64,
    exec (.decode h) s = .next { s with decoder := { value := h, result := d }, r := d } ∧
    binary64Kind d = .nan true ∧ binary64Sign d = sbfpSign h ∧
    d.extractLsb' 41 10 = sbfpFrac h ∧ d.extractLsb' 0 41 = 0

/-- DECODE is injective: two invocations with the same output had the same operand (R84, marked derived there, with
decisions D8 and D12). -/
def Obligations.DecodeIsInjective : Prop :=
  ∀ (h h' : Sbfp) (s s' t t' : State), exec (.decode h) s = .next t → exec (.decode h') s' = .next t' →
    t.r = t'.r → h = h'

/-! ### MUL -/

/-- MUL follows the special-value table of R87 row by row wherever the table decides (its rows for Infinity times zero
are decision D11, its NaN pattern D9, that an operand NaN is not passed through D10; log entry 8). -/
def Obligations.MulFollowsSpecialTable : Prop :=
  ∀ (a b c : Sbfp) (s : State), mulTable a b = some c →
    exec (.mul a b) s = .next { s with multiplier := { a := a, b := b, c := c }, r := c.setWidth 64 }

/-- R89 and R90: Infinity times Infinity and Infinity times a finite nonzero operand, denormals included and in either
order, give the Infinity whose sign is the XOR of the signs. -/
def Obligations.MulInfinitySignIsXor : Prop :=
  ∀ (a b : Sbfp) (s : State),
    ((classOf a).isInf = true ∧ (classOf b).isInf = true) ∨
    ((classOf a).isInf = true ∧ classOf b = .finite ∧ isZero b = false) ∨
    (classOf a = .finite ∧ isZero a = false ∧ (classOf b).isInf = true) →
    exec (.mul a b) s = .next { s with
      multiplier := { a := a, b := b, c := pack (sbfpSign a ^^^ sbfpSign b) 31 0 }
      r := (pack (sbfpSign a ^^^ sbfpSign b) 31 0).setWidth 64 }

/-- The parameter MUL_INF_ZERO changes Infinity times zero and nothing else: set to zero it gives 0x0000 there (R9, R91,
U4, 95_test_vectors.md section 2.3; decision D11). -/
def Obligations.MulInfZeroParameterIsLocal : Prop :=
  ∀ (c : Config) (a b : Sbfp),
    fpMultiply { c with mulInfZero := .zero } a b =
      if ((classOf a).isInf = true ∧ isZero b = true) ∨ (isZero a = true ∧ (classOf b).isInf = true) then 0x0000
      else fpMultiply { c with mulInfZero := .nan } a b

/-- MUL of finite operands is encodeQ of the exact product of their values (R93, marked derived there). -/
def Obligations.MulIsTruncatedExactProduct : Prop :=
  ∀ (a b : Sbfp) (s : State), classOf a = .finite → classOf b = .finite →
    exec (.mul a b) s = .next { s with
      multiplier := { a := a, b := b, c := encodeQ (real a * real b) }
      r := (encodeQ (real a * real b)).setWidth 64 }

/-- MUL of finite operands is what the integer datapath of R97 computes in a 22-bit product and a 6-bit exponent sum,
and nothing overflows at these widths (marked derived there). -/
def Obligations.MulMatchesIntegerDatapath : Prop :=
  ∀ (a b : Sbfp) (s : State), classOf a = .finite → classOf b = .finite →
    exec (.mul a b) s = .next { s with
      multiplier := { a := a, b := b, c := mulDatapath a b }, r := (mulDatapath a b).setWidth 64 } ∧
    (productField a b).toNat = significand a * significand b ∧ (productField a b).toNat ≤ 2047 ^ 2 ∧
    (exponentSum6 a b).toInt = unbiasedExponent a + unbiasedExponent b ∧
    -28 ≤ (exponentSum6 a b).toInt ∧ (exponentSum6 a b).toInt ≤ 30

/-- A zero product of finite operands gives 0x0000, whatever the signs (R94, marked derived there). -/
def Obligations.MulZeroProductIsPositiveZero : Prop :=
  ∀ (a b : Sbfp) (s : State), classOf a = .finite → classOf b = .finite →
    (isZero a = true ∨ isZero b = true ↔ real a * real b = 0) ∧
    (isZero a = true ∨ isZero b = true →
      exec (.mul a b) s = .next { s with multiplier := { a := a, b := b, c := 0x0000 }, r := 0 })

/-- The ranges of MUL on finite operands: at least 65536 in magnitude gives the Infinity of the product's sign, nonzero
below 2^-24 gives the zero of the product's sign, otherwise the exact product truncated toward zero: the largest finite
magnitude not above it, with its sign wherever it is not 0; never a NaN (R95, marked derived there). -/
def Obligations.MulResultRanges : Prop :=
  ∀ (a b : Sbfp) (s : State), classOf a = .finite → classOf b = .finite → ∃ c : Sbfp,
    exec (.mul a b) s = .next { s with multiplier := { a := a, b := b, c := c }, r := c.setWidth 64 } ∧
    classOf c ≠ .nan ∧
    (65536 ≤ |real a * real b| → c = pack (sbfpSign a ^^^ sbfpSign b) 31 0) ∧
    (real a * real b ≠ 0 → |real a * real b| < 2 ^ (-24 : ℤ) → c = pack (sbfpSign a ^^^ sbfpSign b) 0 0) ∧
    (real a * real b ≠ 0 → sbfpSign c = sbfpSign a ^^^ sbfpSign b) ∧
    (|real a * real b| < 65536 → classOf c = .finite ∧ |real c| ≤ |real a * real b| ∧
      (∀ h : Sbfp, classOf h = .finite → |real h| ≤ |real a * real b| → |real h| ≤ |real c|))

/-- MUL is commutative, for all 2^32 pairs (R96, marked derived there). -/
def Obligations.MulCommutes : Prop :=
  ∀ (a b : Sbfp) (s : State), ∃ c : Sbfp,
    exec (.mul a b) s = .next { s with multiplier := { a := a, b := b, c := c }, r := c.setWidth 64 } ∧
    exec (.mul b a) s = .next { s with multiplier := { a := b, b := a, c := c }, r := c.setWidth 64 }

/-- Multiplying by 1.0 gives the operand back, but for −0, which gives 0x0000, and for a NaN, which gives the canonical
NaN (R96, marked derived there). -/
def Obligations.MulByOneIsIdentity : Prop :=
  ∀ (a : Sbfp) (s : State), ∃ c : Sbfp,
    exec (.mul a 0x3C00) s = .next { s with multiplier := { a := a, b := 0x3C00, c := c }, r := c.setWidth 64 } ∧
    c = if classOf a = .nan then 0x7C01 else if a = 0x8000 then 0x0000 else a

/-! ### ADD -/

/-- ADD follows the special-value table of R99 row by row wherever the table decides: any NaN gives the canonical NaN,
equal Infinities that Infinity, opposite Infinities the canonical NaN, an Infinity and a finite operand that Infinity
(R99 to R102; the canonical NaN's pattern is decision D9, that an operand NaN is not passed through D10; log
entry 8). -/
def Obligations.AddFollowsSpecialTable : Prop :=
  ∀ (a b c : Sbfp) (s : State), addTable (classOf a) (classOf b) = some c →
    exec (.add a b) s = .next { s with adder := { a := a, b := b, c := c }, r := c.setWidth 64 }

/-- ADD of finite operands is encodeQ of the exact sum of their values (R106, marked derived there). -/
def Obligations.AddIsTruncatedExactSum : Prop :=
  ∀ (a b : Sbfp) (s : State), classOf a = .finite → classOf b = .finite →
    exec (.add a b) s = .next { s with
      adder := { a := a, b := b, c := encodeQ (real a + real b) }
      r := (encodeQ (real a + real b)).setWidth 64 }

/-- ADD of finite operands is what the integer datapath of R109 computes in 40-bit aligned significands and a 42-bit
sum, and nothing overflows at these widths (marked derived there). -/
def Obligations.AddMatchesIntegerDatapath : Prop :=
  ∀ (a b : Sbfp) (s : State), classOf a = .finite → classOf b = .finite →
    exec (.add a b) s = .next { s with
      adder := { a := a, b := b, c := addDatapath a b }, r := (addDatapath a b).setWidth 64 } ∧
    ((sumField a b).toInt : ℚ) * 2 ^ ((minExponent6 a b).toInt - 10) = real a + real b ∧
    |(sumField a b).toInt| < 2 ^ 41 ∧
    (minExponent6 a b).toInt = min (unbiasedExponent a) (unbiasedExponent b) ∧
    -24 ≤ (minExponent6 a b).toInt - 10 ∧ (minExponent6 a b).toInt - 10 ≤ 5

/-- ADD of finite operands gives 0x0000 exactly when the exact sum is 0, and never gives 0x8000: a nonzero sum is never
re-encoded as a zero (R107, marked derived there). -/
def Obligations.AddZeroSumIsPositiveZero : Prop :=
  ∀ (a b : Sbfp) (s : State), classOf a = .finite → classOf b = .finite → ∃ c : Sbfp,
    exec (.add a b) s = .next { s with adder := { a := a, b := b, c := c }, r := c.setWidth 64 } ∧
    (c = 0x0000 ↔ real a + real b = 0) ∧ c ≠ 0x8000

/-- The ranges of ADD on finite operands: at least 65536 in magnitude gives the Infinity of the sum's sign, otherwise
the exact sum truncated toward zero: the largest finite magnitude not above it, with its sign; never a NaN; doubling is
exact below 65536 (R108, marked derived there). -/
def Obligations.AddResultRanges : Prop :=
  ∀ (a b : Sbfp) (s : State), classOf a = .finite → classOf b = .finite → ∃ c : Sbfp,
    exec (.add a b) s = .next { s with adder := { a := a, b := b, c := c }, r := c.setWidth 64 } ∧
    classOf c ≠ .nan ∧
    (65536 ≤ |real a + real b| → c = if real a + real b < 0 then 0xFC00 else 0x7C00) ∧
    (|real a + real b| < 65536 → classOf c = .finite ∧ (real c < 0 ↔ real a + real b < 0) ∧
      |real c| ≤ |real a + real b| ∧
      (∀ h : Sbfp, classOf h = .finite → |real h| ≤ |real a + real b| → |real h| ≤ |real c|)) ∧
    (a = b → 2 * |real a| < 65536 → real c = 2 * real a)

/-- ADD is commutative, for all 2^32 pairs (R108, marked derived there). -/
def Obligations.AddCommutes : Prop :=
  ∀ (a b : Sbfp) (s : State), ∃ c : Sbfp,
    exec (.add a b) s = .next { s with adder := { a := a, b := b, c := c }, r := c.setWidth 64 } ∧
    exec (.add b a) s = .next { s with adder := { a := b, b := a, c := c }, r := c.setWidth 64 }

/-- Adding a zero of either sign gives the operand back, but for −0, which gives 0x0000, and for a NaN, which gives the
canonical NaN (R108, marked derived there). -/
def Obligations.AddZeroIsIdentity : Prop :=
  ∀ (a z : Sbfp) (s : State), isZero z = true → ∃ c : Sbfp,
    exec (.add a z) s = .next { s with adder := { a := a, b := z, c := c }, r := c.setWidth 64 } ∧
    c = if classOf a = .nan then 0x7C01 else if a = 0x8000 then 0x0000 else a

/-! ### What replaces the exceptions -/

/-- What the result holds in place of each condition of R110 (its names are from general knowledge there): after
overflow the Infinity, and after underflow the zero, of the exact value's sign; the canonical NaN after an invalid
combination (decisions D9 to D11); an SBFP Infinity of its sign or a NaN for a host one (decisions D6 and D7); a smaller
magnitude after truncation; and no Infinity comes out of a finite exact value below the overflow threshold, which is
what a division by zero would do. Which invocations meet a condition, the exact value before re-encoding being the one
that counts, is the model's choice, log entry 19. -/
def Obligations.ConditionsShowOnlyInResult : Prop :=
  ∀ (i : Instr) (s : State), ∃ s', exec i s = .next s' ∧
    (∀ v, exactResult i = some v → Condition.holds .overflow i = true →
      s'.r = if v.toRat < 0 then 0xFC00 else 0x7C00) ∧
    (∀ v, exactResult i = some v → Condition.holds .underflow i = true →
      s'.r = if v.toRat < 0 then 0x8000 else 0x0000) ∧
    (∀ v, exactResult i = some v → Condition.holds .inexact i = true →
      |real (s'.r.extractLsb' 0 16)| < |v.toRat|) ∧
    (Condition.holds .overflow i = true ∨ Condition.holds .underflow i = true ∨
      Condition.holds .inexact i = true → ∃ v, exactResult i = some v) ∧
    (Condition.holds .invalid i = true → s'.r = 0x7C01) ∧
    (∀ d, i = .encode d → Condition.holds .hostSpecial i = true →
      sbfpSign (s'.r.extractLsb' 0 16) = binary64Sign d ∧
      (binary64Frac d = 0 → (classOf (s'.r.extractLsb' 0 16)).isInf = true) ∧
      (binary64Frac d ≠ 0 → classOf (s'.r.extractLsb' 0 16) = .nan)) ∧
    Condition.holds .divideByZero i = false

/-- Under every legal choice of the open parameters the arithmetic units return a NaN exactly for the combinations that
the rules name: a NaN operand, Infinity times zero where MUL_INF_ZERO is a NaN, Infinities of opposite signs added
(R87, R95, R99, R108, with R9, U2 to U5 and log entry 8 for the parameters). -/
def Obligations.NaNResultsUnderAnyLegalConfig : Prop :=
  ∀ (c : Config), LegalConfig c → ∀ a b : Sbfp,
    (classOf (fpMultiply c a b) = .nan ↔
      classOf a = .nan ∨ classOf b = .nan ∨
      (c.mulInfZero = .nan ∧
        (((classOf a).isInf = true ∧ isZero b = true) ∨ (isZero a = true ∧ (classOf b).isInf = true)))) ∧
    (classOf (fpAdd c a b) = .nan ↔
      classOf a = .nan ∨ classOf b = .nan ∨
      ((classOf a).isInf = true ∧ (classOf b).isInf = true ∧ classOf a ≠ classOf b))
end

