-- ==== Sys2Proof/Laws/Exact.lean ====
section
/-! SUPPORT. What the operations on exact numbers denote over ℚ, one lemma per operation. -/

namespace Sys2Proof.Machine

theorem Magnitude.toRat_nonneg (m : Magnitude) : 0 ≤ m.toRat := by
  unfold Magnitude.toRat; positivity

theorem Magnitude.toRat_scale (m : Magnitude) (k : Int) : (m.scale k).toRat = m.toRat * 2 ^ k := by
  simp only [Magnitude.toRat, Magnitude.scale]
  rw [zpow_add₀ two_ne_zero, mul_assoc]

theorem Magnitude.toRat_of_nonneg {m : Magnitude} (h : 0 ≤ m.exp) :
    m.toRat = ((m.num <<< m.exp.toNat : Nat) : ℚ) := by
  obtain ⟨k, hk⟩ := Int.eq_ofNat_of_zero_le h
  simp [Magnitude.toRat, hk, Nat.shiftLeft_eq]

theorem Magnitude.toRat_of_neg {m : Magnitude} (h : ¬ 0 ≤ m.exp) :
    m.toRat = (m.num : ℚ) / ((2 ^ (-m.exp).toNat : Nat) : ℚ) := by
  obtain ⟨k, hk⟩ := Int.eq_ofNat_of_zero_le (show 0 ≤ -m.exp by omega)
  have he : m.exp = -(k : Int) := by omega
  simp [Magnitude.toRat, he, div_eq_mul_inv]

/-- `floor` is the integer part. -/
theorem Magnitude.floor_eq (m : Magnitude) : m.floor = ⌊m.toRat⌋₊ := by
  unfold Magnitude.floor
  split
  case isTrue h => rw [Magnitude.toRat_of_nonneg h, Nat.floor_natCast]
  case isFalse h => rw [Magnitude.toRat_of_neg h, Nat.floor_div_eq_div, Nat.shiftRight_eq_div_pow]

/-- `subNat` subtracts an integer that is not above the magnitude. -/
theorem Magnitude.toRat_subNat {m : Magnitude} {k : Nat} (h : (k : ℚ) ≤ m.toRat) :
    (m.subNat k).toRat = m.toRat - k := by
  unfold Magnitude.subNat
  split
  case isTrue he =>
    rw [Magnitude.toRat_of_nonneg he] at h ⊢
    rw [Nat.cast_le] at h
    simp [Magnitude.toRat, Nat.cast_sub h]
  case isFalse he =>
    rw [Magnitude.toRat_of_neg he] at h ⊢
    have hp : (0 : ℚ) < ((2 ^ (-m.exp).toNat : Nat) : ℚ) := by positivity
    rw [le_div_iff₀ hp, ← Nat.cast_mul, Nat.cast_le] at h
    rw [Magnitude.toRat_of_neg (m := { num := m.num - (k <<< (-m.exp).toNat), exp := m.exp }) he,
      Nat.shiftLeft_eq]
    rw [Nat.cast_sub h, sub_div, Nat.cast_mul, mul_div_cancel_right₀ _ hp.ne']

theorem Magnitude.toRat_mul (m n : Magnitude) : (m.mul n).toRat = m.toRat * n.toRat := by
  simp only [Magnitude.toRat, Magnitude.mul, Nat.cast_mul]
  rw [zpow_add₀ two_ne_zero]; ring

theorem Exact.toRat_scale (v : Exact) (k : Int) : (v.scale k).toRat = v.toRat * 2 ^ k := by
  simp only [Exact.toRat, Exact.scale]
  rw [zpow_add₀ two_ne_zero, mul_assoc]

theorem Exact.toRat_magnitude (v : Exact) : v.magnitude.toRat = |v.toRat| := by
  have h : (0 : ℚ) ≤ 2 ^ v.exp := by positivity
  simp only [Exact.toRat, Exact.magnitude, Magnitude.toRat, abs_mul, abs_of_nonneg h, Nat.cast_natAbs,
    Int.cast_abs]

theorem Exact.toRat_neg_iff (v : Exact) : v.toRat < 0 ↔ v.num < 0 := by
  have h : (0 : ℚ) < 2 ^ v.exp := by positivity
  rw [Exact.toRat, ← not_le, ← not_le, mul_nonneg_iff_of_pos_right h, Int.cast_nonneg_iff]

theorem BitVec1_cases (s : BitVec 1) : s = 0 ∨ s = 1 := by
  revert s; decide

theorem Magnitude.toRat_withSign (m : Magnitude) (s : BitVec 1) :
    (m.withSign s).toRat = (-1) ^ s.toNat * m.toRat := by
  rcases BitVec1_cases s with rfl | rfl <;> simp [Magnitude.withSign, Exact.toRat, Magnitude.toRat]

end Sys2Proof.Machine
end

