-- ==== Sys2Proof/Laws/Operands.lean ====
section
/-! SUPPORT. The fields and classes of SBFP and binary64 patterns, and the rationals their exact numbers denote. -/

namespace Sys2Proof.Machine

theorem extract_toNat {n : Nat} (v : BitVec n) (k w : Nat) :
    (v.extractLsb' k w).toNat = v.toNat / 2 ^ k % 2 ^ w := by
  rw [BitVec.extractLsb'_toNat, Nat.shiftRight_eq_div_pow]

theorem pack_toNat (s : BitVec 1) (e : BitVec 5) (f : BitVec 10) :
    (pack s e f).toNat = s.toNat * 2 ^ 15 + e.toNat * 2 ^ 10 + f.toNat := by
  rw [pack, BitVec.toNat_ofNat]
  have := s.isLt; have := e.isLt; have := f.isLt
  omega

@[simp] theorem sbfpSign_pack (s : BitVec 1) (e : BitVec 5) (f : BitVec 10) : sbfpSign (pack s e f) = s := by
  apply BitVec.eq_of_toNat_eq
  rw [sbfpSign, extract_toNat, pack_toNat]
  have := s.isLt; have := e.isLt; have := f.isLt
  omega

@[simp] theorem sbfpExp_pack (s : BitVec 1) (e : BitVec 5) (f : BitVec 10) : sbfpExp (pack s e f) = e := by
  apply BitVec.eq_of_toNat_eq
  rw [sbfpExp, extract_toNat, pack_toNat]
  have := s.isLt; have := e.isLt; have := f.isLt
  omega

@[simp] theorem sbfpFrac_pack (s : BitVec 1) (e : BitVec 5) (f : BitVec 10) : sbfpFrac (pack s e f) = f := by
  apply BitVec.eq_of_toNat_eq
  rw [sbfpFrac, extract_toNat, pack_toNat]
  have := s.isLt; have := e.isLt; have := f.isLt
  omega

/-- A pattern is its three fields (R40). -/
theorem pack_fields (h : Sbfp) : pack (sbfpSign h) (sbfpExp h) (sbfpFrac h) = h := by
  apply BitVec.eq_of_toNat_eq
  rw [pack_toNat, sbfpSign, sbfpExp, sbfpFrac, extract_toNat, extract_toNat, extract_toNat]
  have := h.isLt
  omega

theorem classOf_eq_finite_iff (h : Sbfp) : classOf h = .finite ↔ sbfpExp h ≠ 31 := by
  unfold classOf
  rw [show reservedExponent = 31 from rfl]
  split_ifs <;> simp_all

theorem classOf_eq_nan_iff (h : Sbfp) : classOf h = .nan ↔ sbfpExp h = 31 ∧ sbfpFrac h ≠ 0 := by
  unfold classOf
  rw [show reservedExponent = 31 from rfl]
  split_ifs <;> simp_all

theorem classOf_isInf_iff (h : Sbfp) : (classOf h).isInf = true ↔ sbfpExp h = 31 ∧ sbfpFrac h = 0 := by
  unfold classOf
  rw [show reservedExponent = 31 from rfl]
  split_ifs <;> simp_all [SbfpClass.isInf]

theorem isZero_iff (h : Sbfp) : isZero h = true ↔ sbfpExp h = 0 ∧ sbfpFrac h = 0 := by
  have hz : isZero h = true ↔ h.toNat / 2 ^ 0 % 2 ^ 15 = 0 := by
    rw [isZero, beq_iff_eq, ← BitVec.toNat_inj, extract_toNat]; rfl
  have he : sbfpExp h = 0 ↔ h.toNat / 2 ^ 10 % 2 ^ 5 = 0 := by
    rw [sbfpExp, ← BitVec.toNat_inj, extract_toNat]; rfl
  have hf : sbfpFrac h = 0 ↔ h.toNat / 2 ^ 0 % 2 ^ 10 = 0 := by
    rw [sbfpFrac, ← BitVec.toNat_inj, extract_toNat]; rfl
  rw [hz, he, hf]
  have := h.isLt
  omega

/-- The significand fits 11 bits (R51). -/
theorem significand_le (h : Sbfp) : significand h ≤ 2047 := by
  have := (sbfpFrac h).isLt
  unfold significand
  split <;> omega

/-- The unbiased exponent of a finite pattern (R51). -/
theorem unbiasedExponent_range {h : Sbfp} (hf : classOf h = .finite) :
    -14 ≤ unbiasedExponent h ∧ unbiasedExponent h ≤ 15 := by
  rw [classOf_eq_finite_iff, ne_eq, ← BitVec.toNat_inj] at hf
  have h31 : (sbfpExp h).toNat ≠ 31 := hf
  have := (sbfpExp h).isLt
  unfold unbiasedExponent bias
  split
  case isTrue => omega
  case isFalse h0 =>
    rw [← BitVec.toNat_inj] at h0
    have h0' : (sbfpExp h).toNat ≠ 0 := h0
    omega

/-- The exact number of a binary64 pattern denotes R47's value. -/
theorem exact64_toRat (d : Binary64) : (exact64 d).toRat = real64 d := by
  unfold exact64 real64
  split
  · rw [Magnitude.toRat_withSign, Magnitude.toRat, mul_assoc]
  · rw [Magnitude.toRat_withSign, Magnitude.toRat]
    have : ((binary64Exp d).toNat : ℤ) - 1075 = (((binary64Exp d).toNat : ℤ) - 1023) - (52 : ℕ) := by
      push_cast; ring
    rw [this, zpow_sub₀ two_ne_zero, zpow_natCast]
    push_cast; ring

/-- The exact number of an SBFP pattern denotes R43's value (R50). -/
theorem exact16_toRat (h : Sbfp) : (exact16 h).toRat = real h := by
  have h10 : (2 : ℚ) ^ (-10 : ℤ) = 1 / 2 ^ 10 := by rw [zpow_neg]; norm_cast; simp
  unfold exact16 real
  rw [Magnitude.toRat_withSign, Magnitude.toRat_scale]
  simp only [unpack, significand, unbiasedExponent, bias, Magnitude.toRat, h10]
  split
  · ring
  · push_cast; ring

theorem packBinary64_toNat (s : BitVec 1) (x : BitVec 11) (g : BitVec 52) :
    (packBinary64 s x g).toNat = s.toNat * 2 ^ 63 + x.toNat * 2 ^ 52 + g.toNat := by
  rw [packBinary64, BitVec.toNat_ofNat]
  have := s.isLt; have := x.isLt; have := g.isLt
  omega

@[simp] theorem binary64Sign_pack (s : BitVec 1) (x : BitVec 11) (g : BitVec 52) :
    binary64Sign (packBinary64 s x g) = s := by
  apply BitVec.eq_of_toNat_eq
  rw [binary64Sign, extract_toNat, packBinary64_toNat]
  have := s.isLt; have := x.isLt; have := g.isLt
  omega

@[simp] theorem binary64Exp_pack (s : BitVec 1) (x : BitVec 11) (g : BitVec 52) :
    binary64Exp (packBinary64 s x g) = x := by
  apply BitVec.eq_of_toNat_eq
  rw [binary64Exp, extract_toNat, packBinary64_toNat]
  have := s.isLt; have := x.isLt; have := g.isLt
  omega

@[simp] theorem binary64Frac_pack (s : BitVec 1) (x : BitVec 11) (g : BitVec 52) :
    binary64Frac (packBinary64 s x g) = g := by
  apply BitVec.eq_of_toNat_eq
  rw [binary64Frac, extract_toNat, packBinary64_toNat]
  have := s.isLt; have := x.isLt; have := g.isLt
  omega

/-- A pattern is its three fields (R46). -/
theorem packBinary64_fields (d : Binary64) :
    packBinary64 (binary64Sign d) (binary64Exp d) (binary64Frac d) = d := by
  apply BitVec.eq_of_toNat_eq
  rw [packBinary64_toNat, binary64Sign, binary64Exp, binary64Frac, extract_toNat, extract_toNat, extract_toNat]
  have := d.isLt
  omega

end Sys2Proof.Machine
end

