-- ==== Sys2Proof/Laws/Decode.lean ====
section
/-! SUPPORT. What bits64 builds: the pattern whose sign bit and value are its arguments (R76, R82). -/

namespace Sys2Proof.Machine

theorem binary64Sign_bits64 (s : BitVec 1) (m : Magnitude) : binary64Sign (bits64 s m) = s := by
  unfold bits64; split <;> simp

theorem real64_bits64_zero (s : BitVec 1) {m : Magnitude} (h : m.num = 0) : real64 (bits64 s m) = 0 := by
  simp [bits64, h, real64]

theorem binary64Exp_bits64 (s : BitVec 1) {m : Magnitude} (h : m.num ≠ 0)
    (hlo : 1 ≤ m.exp + Nat.log2 m.num + 1023) (hhi : m.exp + Nat.log2 m.num + 1023 ≤ 2046) :
    ((binary64Exp (bits64 s m)).toNat : Int) = m.exp + Nat.log2 m.num + 1023 := by
  rw [bits64, if_neg h, binary64Exp_pack, BitVec.toNat_ofInt]
  omega

theorem binary64Frac_bits64 (s : BitVec 1) {m : Magnitude} (h : m.num ≠ 0) (h52 : Nat.log2 m.num ≤ 52) :
    (binary64Frac (bits64 s m)).toNat = (m.num - 2 ^ Nat.log2 m.num) * 2 ^ (52 - Nat.log2 m.num) := by
  rw [bits64, if_neg h, binary64Frac_pack, BitVec.toNat_ofNat, Nat.mod_eq_of_lt]
  have hlt : m.num < 2 ^ (Nat.log2 m.num + 1) := Nat.lt_log2_self
  have h1 : m.num - 2 ^ Nat.log2 m.num < 2 ^ Nat.log2 m.num := by
    rw [pow_succ] at hlt; omega
  calc (m.num - 2 ^ Nat.log2 m.num) * 2 ^ (52 - Nat.log2 m.num)
      < 2 ^ Nat.log2 m.num * 2 ^ (52 - Nat.log2 m.num) := Nat.mul_lt_mul_of_pos_right h1 (by positivity)
    _ = 2 ^ 52 := by rw [← pow_add]; congr 1; omega

/-- In the normal range, with at most 53 significant bits, bits64 is exact (R82). -/
theorem real64_bits64 (s : BitVec 1) {m : Magnitude} (h : m.num ≠ 0) (h52 : Nat.log2 m.num ≤ 52)
    (hlo : 1 ≤ m.exp + Nat.log2 m.num + 1023) (hhi : m.exp + Nat.log2 m.num + 1023 ≤ 2046) :
    real64 (bits64 s m) = (-1) ^ s.toNat * m.toRat := by
  have hx := binary64Exp_bits64 s h hlo hhi
  have hx0 : binary64Exp (bits64 s m) ≠ 0 := by
    intro h0; rw [h0] at hx; simp at hx; omega
  have hle : 2 ^ Nat.log2 m.num ≤ m.num := Nat.log2_self_le h
  rw [real64, if_neg hx0, hx, binary64Sign_bits64, binary64Frac_bits64 s h h52, Magnitude.toRat]
  have hsub : m.exp + (Nat.log2 m.num : ℤ) + 1023 - 1023 = m.exp + (Nat.log2 m.num : ℤ) := by ring
  have hp : (2 : ℚ) ^ 52 = 2 ^ Nat.log2 m.num * 2 ^ (52 - Nat.log2 m.num) := by
    rw [← pow_add]; congr 1; omega
  have h1 : (2 : ℚ) ^ Nat.log2 m.num ≠ 0 := by positivity
  have h2 : (2 : ℚ) ^ (52 - Nat.log2 m.num) ≠ 0 := by positivity
  rw [hsub, zpow_add₀ two_ne_zero, zpow_natCast, Nat.cast_mul, Nat.cast_sub hle, hp]
  push_cast
  field_simp
  ring

end Sys2Proof.Machine
end

