-- ==== Sys2Proof/Laws/Encode.lean ====
section
/-! SUPPORT. What truncation, normalization and re-encoding denote: one lemma per shared operation of Machine/Ops.lean,
up to encodeExact, which is encodeQ of the rational that its argument denotes. -/

namespace Sys2Proof.Machine

theorem floor_shift {q : ℚ} {b k : Nat} (h : (b : ℚ) ≤ q) :
    ⌊(q - b) * 2 ^ k⌋₊ + b * 2 ^ k = ⌊q * 2 ^ k⌋₊ := by
  rw [← Nat.floor_add_natCast (by have := sub_nonneg.2 h; positivity)]
  congr 1; push_cast; ring

theorem extractBits_eq (k : Nat) : ∀ (r : Magnitude) (bits : Nat), r.toRat < 1 →
    extractBits k r bits = bits * 2 ^ k + ⌊r.toRat * 2 ^ k⌋₊ := by
  induction k with
  | zero =>
    intro r bits h
    simp [extractBits, Nat.floor_eq_zero.2 h]
  | succ k ih =>
    intro r bits h
    have h2 : (r.scale 1).toRat = r.toRat * 2 := by rw [Magnitude.toRat_scale, zpow_one]
    have hb : (((r.scale 1).floor : Nat) : ℚ) ≤ (r.scale 1).toRat := by
      rw [Magnitude.floor_eq]; exact Nat.floor_le (Magnitude.toRat_nonneg _)
    have hs := Magnitude.toRat_subNat hb
    have hlt : ((r.scale 1).subNat (r.scale 1).floor).toRat < 1 := by
      rw [hs, Magnitude.floor_eq]
      linarith [Nat.lt_floor_add_one (r.scale 1).toRat]
    have hf := floor_shift (k := k) hb
    rw [extractBits, ih _ _ hlt, hs]
    rw [h2] at hf
    rw [h2, pow_succ' (2 : ℚ) k, ← mul_assoc, ← hf]
    ring

/-- extract10 of a remainder below 1 is its first 10 fraction bits, truncated (R66). -/
theorem extract10_eq {r : Magnitude} (h : r.toRat < 1) :
    extract10 r = BitVec.ofNat 10 ⌊r.toRat * 2 ^ 10⌋₊ := by
  rw [extract10, extractBits_eq 10 r 0 h, zero_mul, zero_add]

theorem halveLoop_spec (fuel : Nat) : ∀ (n : Magnitude) (e : Int), n.toRat < 2 ^ (fuel + 1) →
    (halveLoop fuel n e).1.toRat * 2 ^ (halveLoop fuel n e).2 = n.toRat * 2 ^ e ∧
    (halveLoop fuel n e).1.toRat < 2 ∧ min 1 n.toRat ≤ (halveLoop fuel n e).1.toRat := by
  induction fuel with
  | zero => intro n e h; simpa [halveLoop] using h
  | succ fuel ih =>
    intro n e h
    unfold halveLoop
    split
    case isFalse hf =>
      rw [Magnitude.floor_eq, Nat.le_floor_iff (Magnitude.toRat_nonneg n), not_le] at hf
      exact ⟨rfl, by exact_mod_cast hf, min_le_right _ _⟩
    case isTrue hf =>
      rw [Magnitude.floor_eq, Nat.le_floor_iff (Magnitude.toRat_nonneg n)] at hf
      have hs : (n.scale (-1)).toRat = n.toRat / 2 := by
        rw [Magnitude.toRat_scale, zpow_neg_one, div_eq_mul_inv]
      obtain ⟨h1, h2, h3⟩ := ih (n.scale (-1)) (e + 1) (by
        rw [hs, div_lt_iff₀ two_pos, ← pow_succ]; exact h)
      refine ⟨?_, h2, le_trans (le_min ?_ ?_) h3⟩
      · rw [h1, hs, zpow_add₀ two_ne_zero, zpow_one]; ring
      · exact min_le_left _ _
      · rw [hs]; push_cast at hf; exact (min_le_left _ _).trans (by linarith)

theorem doubleLoop_spec (fuel : Nat) : ∀ (n : Magnitude) (e : Int), n.toRat < 2 → 1 ≤ n.toRat * 2 ^ fuel →
    (doubleLoop fuel n e).1.toRat * 2 ^ (doubleLoop fuel n e).2 = n.toRat * 2 ^ e ∧
    (doubleLoop fuel n e).1.toRat < 2 ∧ 1 ≤ (doubleLoop fuel n e).1.toRat := by
  induction fuel with
  | zero => intro n e h h1; exact ⟨rfl, h, by simpa [doubleLoop] using h1⟩
  | succ fuel ih =>
    intro n e h h1
    unfold doubleLoop
    split
    case isFalse hf =>
      rw [Magnitude.floor_eq, Nat.floor_lt (Magnitude.toRat_nonneg n), not_lt] at hf
      exact ⟨rfl, h, by exact_mod_cast hf⟩
    case isTrue hf =>
      rw [Magnitude.floor_eq, Nat.floor_lt (Magnitude.toRat_nonneg n)] at hf
      have hs : (n.scale 1).toRat = n.toRat * 2 := by rw [Magnitude.toRat_scale, zpow_one]
      push_cast at hf
      obtain ⟨h2, h3⟩ := ih (n.scale 1) (e - 1) (by rw [hs]; linarith) (by
        rw [hs, mul_assoc, ← pow_succ']; exact h1)
      refine ⟨?_, h3⟩
      rw [h2, hs, zpow_sub₀ two_ne_zero, zpow_one]; ring

/-- Between 2^-14 and 2^16 normalization finds n in [1, 2) and E with m = n * 2^E, within its 15 halvings and 14
doublings (R65, R71). -/
theorem normalize_spec {m : Magnitude} (hlo : 2 ^ (-14 : ℤ) ≤ m.toRat) (hhi : m.toRat < 2 ^ 16) :
    (normalize m).1.toRat * 2 ^ (normalize m).2 = m.toRat ∧
    (normalize m).1.toRat < 2 ∧ 1 ≤ (normalize m).1.toRat := by
  obtain ⟨h1, h2, h3⟩ := halveLoop_spec 15 m 0 hhi
  have hlo' : (1 : ℚ) / 2 ^ 14 ≤ m.toRat := by simpa [zpow_neg] using hlo
  have h4 : (1 : ℚ) ≤ (halveLoop 15 m 0).1.toRat * 2 ^ 14 := by
    have : (1 : ℚ) / 2 ^ 14 ≤ (halveLoop 15 m 0).1.toRat :=
      le_trans (le_min (by norm_num) hlo') h3
    linarith [(div_le_iff₀ (by positivity)).1 this]
  obtain ⟨h5, h6⟩ := doubleLoop_spec 14 (halveLoop 15 m 0).1 (halveLoop 15 m 0).2 h2 h4
  exact ⟨by rw [normalize, h5, h1, zpow_zero, mul_one], h6⟩

/-- The exponent that normalization counts is the one R69 names. -/
theorem normalize_exponent {m : Magnitude} (hlo : 2 ^ (-14 : ℤ) ≤ m.toRat) (hhi : m.toRat < 2 ^ 16) :
    (normalize m).2 = Int.log 2 m.toRat := by
  obtain ⟨h1, h2, h3⟩ := normalize_spec hlo hhi
  have hp : (0 : ℚ) < 2 ^ (normalize m).2 := by positivity
  have hm : 0 < m.toRat := lt_of_lt_of_le (by positivity) hlo
  apply le_antisymm
  · rw [← Int.zpow_le_iff_le_log (by norm_num) hm, ← h1]
    push_cast; nlinarith
  · rw [← Int.lt_add_one_iff, ← Int.lt_zpow_iff_log_lt (by norm_num) hm, ← h1]
    push_cast; rw [zpow_add₀ two_ne_zero, zpow_one]; nlinarith

theorem overflows_iff (m : Magnitude) : overflows m = true ↔ 2 ^ 16 ≤ m.toRat := by
  rw [overflows, decide_eq_true_iff, Magnitude.floor_eq, Nat.le_floor_iff (Magnitude.toRat_nonneg m)]
  norm_num [overflowThreshold]

theorem lt_denormal_threshold_iff (q : ℚ) : q < 2 ^ (-14 : ℤ) ↔ q * 2 ^ 14 < 1 := by
  rw [zpow_neg, ← one_div, lt_div_iff₀ (by positivity)]
  norm_cast

theorem takesDenormalPath_iff (m : Magnitude) : takesDenormalPath m = true ↔ m.toRat < 2 ^ (-14 : ℤ) := by
  have hs : (m.scale denormalScaleLog2).toRat = m.toRat * 2 ^ 14 := Magnitude.toRat_scale m 14
  have hn := Magnitude.toRat_nonneg m
  rw [lt_denormal_threshold_iff, takesDenormalPath, Bool.and_eq_true, decide_eq_true_iff, decide_eq_true_iff,
    Magnitude.floor_eq, Magnitude.floor_eq, hs, Nat.floor_eq_zero, Nat.floor_lt (by positivity), Nat.cast_one]
  exact ⟨fun h => h.2, fun h => ⟨by linarith, h⟩⟩

/-- The fraction of the denormal path (R64). -/
theorem extract10_denormal {m : Magnitude} (h : m.toRat < 2 ^ (-14 : ℤ)) :
    extract10 (m.scale denormalScaleLog2) = BitVec.ofNat 10 ⌊m.toRat * 2 ^ 24⌋₊ := by
  have hs : (m.scale denormalScaleLog2).toRat = m.toRat * 2 ^ 14 := Magnitude.toRat_scale m 14
  rw [extract10_eq (by rw [hs]; exact (lt_denormal_threshold_iff _).1 h), hs, mul_assoc, ← pow_add]

/-- The fraction of the normalized path (R66). -/
theorem extract10_normal {m : Magnitude} (hlo : 2 ^ (-14 : ℤ) ≤ m.toRat) (hhi : m.toRat < 2 ^ 16) :
    extract10 ((normalize m).1.subNat 1) =
      BitVec.ofNat 10 ⌊(m.toRat / 2 ^ Int.log 2 m.toRat - 1) * 2 ^ 10⌋₊ := by
  obtain ⟨h3, h4, h5⟩ := normalize_spec hlo hhi
  have hsub : ((normalize m).1.subNat 1).toRat = (normalize m).1.toRat - 1 := by
    rw [Magnitude.toRat_subNat (by exact_mod_cast h5), Nat.cast_one]
  have hn : (normalize m).1.toRat = m.toRat / 2 ^ Int.log 2 m.toRat := by
    rw [eq_div_iff (by positivity), ← normalize_exponent hlo hhi, h3]
  rw [extract10_eq (by rw [hsub]; linarith), hsub, hn]

/-- encodeExact is encodeQ of the rational its argument denotes (R69). -/
theorem encodeExact_eq (v : Exact) : encodeExact v = encodeQ v.toRat := by
  have hsign : signOf v = if v.toRat < 0 then 1 else 0 := by
    simp only [signOf, Exact.toRat_neg_iff]
  have hm : v.magnitude.toRat = |v.toRat| := v.toRat_magnitude
  have ho := overflows_iff v.magnitude
  have hd := takesDenormalPath_iff v.magnitude
  unfold encodeExact encodeQ
  rw [hsign]
  rw [hm] at ho hd
  by_cases h1 : 2 ^ 16 ≤ |v.toRat|
  · rw [if_pos (ho.2 h1), if_pos h1]; rfl
  · rw [if_neg (ho.not.2 h1), if_neg h1]
    by_cases h2 : |v.toRat| < 2 ^ (-14 : ℤ)
    · rw [if_pos (hd.2 h2), if_pos h2, extract10_denormal (by rwa [hm]), hm]
    · rw [if_neg (hd.not.2 h2), if_neg h2]
      rw [← hm] at h1 h2
      rw [extract10_normal (not_lt.1 h2) (not_le.1 h1), normalize_exponent (not_lt.1 h2) (not_le.1 h1), hm]
      rfl

end Sys2Proof.Machine
end

