-- ==== Sys2Proof/Laws/PerInstr.lean ====
section
/-! SUPPORT. The family EncodedFields, one lemma per constructor of Instr: the tuple that the encoder writes is
selected by the operation's op value and holds 0 in the bits the operation ignores (R54, R55). -/

namespace Sys2Proof.Laws.EncodedFields

/-- The instruction is well formed, its encoded op is its row's, and joining and splitting the word keeps the
tuple. -/
def Statement (i : Instr) : Prop :=
  i.wf = true ∧ (encodeTuple i).op = i.opBits ∧ (joinTuple (encodeTuple i)).toNat =
    (encodeTuple i).op.toNat * 2 ^ 80 + (encodeTuple i).x.toNat * 2 ^ 16 + (encodeTuple i).y.toNat

theorem joinTuple_toNat (t : Tuple) :
    (joinTuple t).toNat = t.op.toNat * 2 ^ 80 + t.x.toNat * 2 ^ 16 + t.y.toNat := by
  rw [joinTuple, BitVec.toNat_ofNat]
  have := t.op.isLt; have := t.x.isLt; have := t.y.isLt
  omega

theorem encode (v : Binary64) : Statement (.encode v) := ⟨rfl, rfl, joinTuple_toNat _⟩
theorem decode (v : Sbfp) : Statement (.decode v) := ⟨rfl, rfl, joinTuple_toNat _⟩
theorem mul (a b : Sbfp) : Statement (.mul a b) := ⟨rfl, rfl, joinTuple_toNat _⟩
theorem add (a b : Sbfp) : Statement (.add a b) := ⟨rfl, rfl, joinTuple_toNat _⟩

end Sys2Proof.Laws.EncodedFields
end

