-- ==== Sys2Proof/Laws/State.lean ====
section
/-! SUPPORT. One lemma per field per update of State, and one per delivery for the meanings. -/

namespace Sys2Proof.Machine

section
variable (s : State) (t : Tuple) (v : Binary64) (h a b c : Sbfp)

@[simp] theorem drive_arch : (s.drive t).arch = s.arch := rfl
@[simp] theorem drive_op : (s.drive t).op = Input.full t.op := rfl
@[simp] theorem drive_x : (s.drive t).x = Input.full t.x := rfl
@[simp] theorem drive_y : (s.drive t).y = Input.full t.y := rfl
@[simp] theorem drive_r : (s.drive t).r = s.r := rfl
@[simp] theorem drive_encoder : (s.drive t).encoder = s.encoder := rfl
@[simp] theorem drive_decoder : (s.drive t).decoder = s.decoder := rfl
@[simp] theorem drive_multiplier : (s.drive t).multiplier = s.multiplier := rfl
@[simp] theorem drive_adder : (s.drive t).adder = s.adder := rfl

@[simp] theorem deliverEncoder_arch : (s.deliverEncoder v c).arch = s.arch := rfl
@[simp] theorem deliverEncoder_op : (s.deliverEncoder v c).op = s.op := rfl
@[simp] theorem deliverEncoder_x : (s.deliverEncoder v c).x = s.x := rfl
@[simp] theorem deliverEncoder_y : (s.deliverEncoder v c).y = s.y := rfl
@[simp] theorem deliverEncoder_r : (s.deliverEncoder v c).r = c.setWidth 64 := rfl
@[simp] theorem deliverEncoder_encoder : (s.deliverEncoder v c).encoder = { value := v, result := c } := rfl
@[simp] theorem deliverEncoder_decoder : (s.deliverEncoder v c).decoder = s.decoder := rfl
@[simp] theorem deliverEncoder_multiplier : (s.deliverEncoder v c).multiplier = s.multiplier := rfl
@[simp] theorem deliverEncoder_adder : (s.deliverEncoder v c).adder = s.adder := rfl

@[simp] theorem deliverDecoder_arch : (s.deliverDecoder h v).arch = s.arch := rfl
@[simp] theorem deliverDecoder_op : (s.deliverDecoder h v).op = s.op := rfl
@[simp] theorem deliverDecoder_x : (s.deliverDecoder h v).x = s.x := rfl
@[simp] theorem deliverDecoder_y : (s.deliverDecoder h v).y = s.y := rfl
@[simp] theorem deliverDecoder_r : (s.deliverDecoder h v).r = v := rfl
@[simp] theorem deliverDecoder_encoder : (s.deliverDecoder h v).encoder = s.encoder := rfl
@[simp] theorem deliverDecoder_decoder : (s.deliverDecoder h v).decoder = { value := h, result := v } := rfl
@[simp] theorem deliverDecoder_multiplier : (s.deliverDecoder h v).multiplier = s.multiplier := rfl
@[simp] theorem deliverDecoder_adder : (s.deliverDecoder h v).adder = s.adder := rfl

@[simp] theorem deliverMultiplier_arch : (s.deliverMultiplier a b c).arch = s.arch := rfl
@[simp] theorem deliverMultiplier_op : (s.deliverMultiplier a b c).op = s.op := rfl
@[simp] theorem deliverMultiplier_x : (s.deliverMultiplier a b c).x = s.x := rfl
@[simp] theorem deliverMultiplier_y : (s.deliverMultiplier a b c).y = s.y := rfl
@[simp] theorem deliverMultiplier_r : (s.deliverMultiplier a b c).r = c.setWidth 64 := rfl
@[simp] theorem deliverMultiplier_encoder : (s.deliverMultiplier a b c).encoder = s.encoder := rfl
@[simp] theorem deliverMultiplier_decoder : (s.deliverMultiplier a b c).decoder = s.decoder := rfl
@[simp] theorem deliverMultiplier_multiplier :
    (s.deliverMultiplier a b c).multiplier = { a := a, b := b, c := c } := rfl
@[simp] theorem deliverMultiplier_adder : (s.deliverMultiplier a b c).adder = s.adder := rfl

@[simp] theorem deliverAdder_arch : (s.deliverAdder a b c).arch = s.arch := rfl
@[simp] theorem deliverAdder_op : (s.deliverAdder a b c).op = s.op := rfl
@[simp] theorem deliverAdder_x : (s.deliverAdder a b c).x = s.x := rfl
@[simp] theorem deliverAdder_y : (s.deliverAdder a b c).y = s.y := rfl
@[simp] theorem deliverAdder_r : (s.deliverAdder a b c).r = c.setWidth 64 := rfl
@[simp] theorem deliverAdder_encoder : (s.deliverAdder a b c).encoder = s.encoder := rfl
@[simp] theorem deliverAdder_decoder : (s.deliverAdder a b c).decoder = s.decoder := rfl
@[simp] theorem deliverAdder_multiplier : (s.deliverAdder a b c).multiplier = s.multiplier := rfl
@[simp] theorem deliverAdder_adder : (s.deliverAdder a b c).adder = { a := a, b := b, c := c } := rfl

end

end Sys2Proof.Machine
end

