-- ==== Sys2Proof/Laws/Step.lean ====
section
/-! SUPPORT. What reading a port, fetching and stepping can do, said once: provers cite these instead of unfolding the
definitions. -/

namespace Sys2Proof.Machine

/-- Reading succeeds exactly when the mask is empty on a wired port, or every bit in the mask is driven. -/
theorem read_eq_ok_iff {n : Nat} (p : InputPort) (mask v : BitVec n) (i : Input n) :
    i.read p mask = .ok v ↔
      (i = .ownOutput ∧ mask = 0 ∧ v = 0) ∨
      ∃ value driven, i = .host value driven ∧ driven &&& mask = mask ∧ v = value &&& mask := by
  cases i with
  | ownOutput =>
    unfold Input.read
    by_cases hm : mask = 0
    · subst hm
      constructor
      · intro h; cases h; exact .inl ⟨rfl, rfl, rfl⟩
      · rintro (⟨-, -, rfl⟩ | ⟨_, _, h', -⟩)
        · rfl
        · cases h'
    · constructor
      · intro h; simp only [if_neg hm] at h; cases h
      · rintro (⟨-, h', -⟩ | ⟨_, _, h', -⟩)
        · exact absurd h' hm
        · cases h'
  | host value driven =>
    simp only [Input.read]
    split
    · next h =>
      constructor
      · rintro ⟨⟩; exact .inr ⟨_, _, rfl, h, rfl⟩
      · rintro (⟨h', -⟩ | ⟨_, _, h', -, rfl⟩) <;> cases h'
        rfl
    · next h =>
      constructor
      · rintro ⟨⟩
      · rintro (⟨h', -⟩ | ⟨_, _, h', h'', -⟩) <;> cases h'
        exact absurd h'' h

/-- A port with every bit driven reads as its value under the mask. -/
@[simp] theorem read_full {n : Nat} (p : InputPort) (mask v : BitVec n) :
    (Input.full v).read p mask = .ok (v &&& mask) := by
  rw [read_eq_ok_iff]
  exact .inr ⟨v, _, rfl, BitVec.allOnes_and, rfl⟩

/-- A fetch of the operands succeeds exactly when both reads do. -/
theorem fetchOperands_eq_ok_iff (s : State) (op : BitVec 2) (t : Tuple) :
    fetchOperands s op = .ok t ↔
      t.op = op ∧ s.x.read .x (readMaskX op) = .ok t.x ∧ s.y.read .y (readMaskY op) = .ok t.y := by
  obtain ⟨o, x, y⟩ := t
  unfold fetchOperands
  split
  · next h => simp [h]
  · next h =>
    split
    · next h' => simp [h']
    · next h' => simp [h, h', eq_comm]

/-- A fetch succeeds exactly when its three reads do. -/
theorem fetchTuple_eq_ok_iff (s : State) (t : Tuple) :
    fetchTuple s = .ok t ↔
      s.op.read .op (BitVec.allOnes 2) = .ok t.op ∧ s.x.read .x (readMaskX t.op) = .ok t.x ∧
      s.y.read .y (readMaskY t.op) = .ok t.y := by
  unfold fetchTuple
  split
  · next h =>
    constructor
    · rintro ⟨⟩
    · rintro ⟨h', -⟩
      rw [h] at h'
      cases h'
  · next o h =>
    rw [fetchOperands_eq_ok_iff, h, Except.ok.injEq]
    constructor
    · rintro ⟨rfl, h'⟩; exact ⟨rfl, h'⟩
    · rintro ⟨rfl, h'⟩; exact ⟨rfl, h'⟩

/-- What each meaning does, in one equation: the selected unit's ports and r, and nothing else. -/
theorem exec_cases (i : Instr) (s : State) :
    (∃ v, i = .encode v ∧ exec i s = .next (s.deliverEncoder v (fpEncode specConfig v))) ∨
    (∃ v, i = .decode v ∧ exec i s = .next (s.deliverDecoder v (fpDecode specConfig v))) ∨
    (∃ a b, i = .mul a b ∧ exec i s = .next (s.deliverMultiplier a b (fpMultiply specConfig a b))) ∨
    (∃ a b, i = .add a b ∧ exec i s = .next (s.deliverAdder a b (fpAdd specConfig a b))) := by
  cases i with
  | encode v => exact .inl ⟨v, rfl, rfl⟩
  | decode v => exact .inr (.inl ⟨v, rfl, rfl⟩)
  | mul a b => exact .inr (.inr (.inl ⟨a, b, rfl, rfl⟩))
  | add a b => exact .inr (.inr (.inr ⟨a, b, rfl, rfl⟩))

/-- A step that answers a next state fetched a tuple and applied the unit it selects. -/
theorem step_eq_next_iff (s s' : State) :
    step s = .next s' ↔ ∃ t, fetchTuple s = .ok t ∧ exec (decodeTuple t) s = .next s' := by
  unfold step
  split
  · next t h => simp [h]
  · next e h => simp [h]

/-- A step is refused exactly when its fetch is. -/
theorem step_eq_refused_iff (s : State) (e : Refusal) : step s = .refused e ↔ fetchTuple s = .error e := by
  unfold step
  split
  · next t h =>
    rw [h]
    rcases exec_cases (decodeTuple t) s with ⟨_, _, h'⟩ | ⟨_, _, h'⟩ | ⟨_, _, _, h'⟩ | ⟨_, _, _, h'⟩ <;> simp [h']
  · next e' h => simp [h]

end Sys2Proof.Machine
end

