-- ==== Sys2Proof/Laws/Safety.lean ====
section
/-! SUPPORT. Driven ports and reading them are the same thing said twice: what a driven port reads as, and what a port
that could be read drives. -/

namespace Sys2Proof.Machine

/-- A port whose masked bits are driven with those of `v` reads as `v` under the mask. -/
theorem read_of_drives {n : Nat} (p : InputPort) {i : Input n} {mask v : BitVec n} (h : Drives i mask v) :
    i.read p mask = .ok (v &&& mask) := by
  rw [read_eq_ok_iff]
  rcases h with rfl | ⟨value, driven, rfl, hd, hv⟩
  · cases i with
    | host value driven => exact .inr ⟨value, driven, rfl, by simp, by simp⟩
    | ownOutput => exact .inl ⟨rfl, rfl, by simp⟩
  · exact .inr ⟨value, driven, rfl, hd, hv.symm⟩

/-- A port that reads as `v` drives the masked bits with those of `v`. -/
theorem drives_of_read {n : Nat} {p : InputPort} {i : Input n} {mask v : BitVec n} (h : i.read p mask = .ok v) :
    Drives i mask v := by
  rw [read_eq_ok_iff] at h
  rcases h with ⟨rfl, h, rfl⟩ | ⟨value, driven, rfl, hd, rfl⟩
  · exact .inl h
  · exact .inr ⟨value, driven, rfl, hd, by rw [BitVec.and_assoc, BitVec.and_self]⟩

/-- A port with every bit driven drives any mask with its value. -/
theorem drives_full {n : Nat} (mask v : BitVec n) : Drives (Input.full v) mask v :=
  .inr ⟨v, BitVec.allOnes n, rfl, BitVec.allOnes_and, rfl⟩

/-- After the host drives a tuple, the tuple is driven. -/
theorem drivesTuple_drive (s : State) (t : Tuple) : DrivesTuple (s.drive t) t :=
  ⟨drives_full _ _, drives_full _ _, drives_full _ _⟩

/-- A fetch reads a driven tuple, with the ignored bits as 0. -/
theorem fetchTuple_of_drives {s : State} {t : Tuple} (h : DrivesTuple s t) :
    fetchTuple s = .ok { op := t.op, x := t.x &&& readMaskX t.op, y := t.y &&& readMaskY t.op } := by
  rw [fetchTuple_eq_ok_iff]
  have ho := read_of_drives .op h.1
  rw [BitVec.and_allOnes] at ho
  exact ⟨ho, read_of_drives .x h.2.1, read_of_drives .y h.2.2⟩

/-- A fetched tuple was driven. -/
theorem drivesTuple_of_fetch {s : State} {t : Tuple} (h : fetchTuple s = .ok t) : DrivesTuple s t := by
  rw [fetchTuple_eq_ok_iff] at h
  exact ⟨drives_of_read h.1, drives_of_read h.2.1, drives_of_read h.2.2⟩

end Sys2Proof.Machine
end

