-- ==== Sys2Proof/Machine/Program.lean ====
section
/-! DEFINITION. The host's side (R58, R130, R131): a program is a sequence of invocations chosen by the host, each
reading values the host supplies or results it holds. The core keeps nothing between them (R12), so all of this stands
around the step and none of it is in State. -/

namespace Sys2Proof.Machine

/-- A value on the host's side: an SBFP or a binary64 pattern (R58). -/
inductive ProgramValue where
  | sbfp (h : Sbfp)
  | binary64 (d : Binary64)
  deriving DecidableEq, Repr

/-- An operand of a program line: a pattern the host supplies, or the result of an earlier line that the host holds
(`tN`, numbered from 0 in the order of the lines) (R58). -/
inductive ProgramOperand where
  | pattern (v : ProgramValue)
  | held (n : Nat)
  deriving DecidableEq, Repr

/-- A line `tN = MNEMONIC operand[, operand]` (R58). -/
structure ProgramLine where
  op : BitVec 2
  first : ProgramOperand
  second : Option ProgramOperand
  deriving DecidableEq, Repr

/-- Why the host cannot carry a program on. The first two are DESIGN CHOICE (notes/assumptions/17.md), safe: the spec
gives such a line no meaning and the model gives it none. -/
inductive ProgramStop where
  /-- A line names a result that the host does not hold. -/
  | valueNotHeld (n : Nat)
  /-- A line's operands are not those of its operation (R54): an operand is missing or is one too many, or it is a
  binary64 where the operation reads an SBFP pattern or the other way round. -/
  | malformedLine
  /-- The core refused the invocation. -/
  | refused (e : Refusal)
  deriving DecidableEq, Repr

/-- The value of an operand: a pattern, or a held result. -/
def operandValue (held : List ProgramValue) : ProgramOperand → Except ProgramStop ProgramValue
  | .pattern v => .ok v
  | .held n =>
    match held[n]? with
    | some v => .ok v
    | none => .error (.valueNotHeld n)

/-- The values of a line's operands. -/
def lineValues (held : List ProgramValue) (l : ProgramLine) :
    Except ProgramStop (ProgramValue × Option ProgramValue) :=
  match operandValue held l.first with
  | .error e => .error e
  | .ok v =>
    match l.second with
    | none => .ok (v, none)
    | some o =>
      match operandValue held o with
      | .error e => .error e
      | .ok w => .ok (v, some w)

/-- Places a line's values on the wrapper's inputs: a binary64 on x for ENCODE; an SBFP pattern on x[15:0] with
x[63:16] = 0 for DECODE, MUL and ADD; a second one on y for MUL and ADD; y = 0 where it is ignored (R54, R131;
95_test_vectors.md section 3). Any other line is malformed: the spec gives it no meaning, and the model stops the
program (DESIGN CHOICE, notes/assumptions/17.md). -/
def placeValues (op : BitVec 2) : ProgramValue × Option ProgramValue → Except ProgramStop Tuple
  | (.binary64 d, none) =>
    if op = 0b00#2 then .ok { op := op, x := d, y := 0 } else .error .malformedLine
  | (.sbfp h, none) =>
    if op = 0b01#2 then .ok { op := op, x := h.setWidth 64, y := 0 } else .error .malformedLine
  | (.sbfp a, some (.sbfp b)) =>
    if op = 0b10#2 ∨ op = 0b11#2 then .ok { op := op, x := a.setWidth 64, y := b } else .error .malformedLine
  | (.sbfp _, some (.binary64 _)) => .error .malformedLine
  | (.binary64 _, some _) => .error .malformedLine

/-- The tuple of a line, or why it has none (R131). -/
def lineTuple (held : List ProgramValue) (l : ProgramLine) : Except ProgramStop Tuple :=
  match lineValues held l with
  | .error e => .error e
  | .ok vs => placeValues l.op vs

/-- What the host gets back from r: the binary64 of DECODE, the SBFP pattern r[15:0] of the others (R54, R130). -/
def resultValue (op : BitVec 2) (r : BitVec 64) : ProgramValue :=
  if op = 0b01#2 then .binary64 r else .sbfp (r.extractLsb' 0 16)

/-- One line: the host drives the tuple, the core makes one step, the host keeps the result (R130). -/
def runLine (held : List ProgramValue) (l : ProgramLine) (s : State) :
    Except ProgramStop (List ProgramValue × State) :=
  match lineTuple held l with
  | .error e => .error e
  | .ok t =>
    match step (s.drive t) with
    | .next s' => .ok (held ++ [resultValue l.op s'.r], s')
    | .refused e => .error (.refused e)

/-- A program: its lines in order, each composed on the results held so far (R131). -/
def runProgram (held : List ProgramValue) : List ProgramLine → State →
    Except ProgramStop (List ProgramValue × State)
  | [], s => .ok (held, s)
  | l :: ls, s =>
    match runLine held l s with
    | .error e => .error e
    | .ok p => runProgram p.1 ls p.2

end Sys2Proof.Machine
end

