-- ==== Sys2Proof/Tests/Slice0.lean ====
section
/-! SUPPORT. The model's own tests. Expected values are the vectors of 95_test_vectors.md or are worked out from the
rule a test names. A theorem witness_<Name> shows concrete values that meet the hypotheses of Obligations.<Name>. -/

namespace Sys2Proof.Tests

open Sys2Proof.Machine

/-! ### Well-formedness -/

/-- R53: a numeral of 83 bits is no wrapper word; the largest 82-bit numeral is one. -/
theorem test_wide_numeral_is_ill_formed :
    fitsWrapperWord (2 ^ 82) = false ∧ fitsWrapperWord (2 ^ 82 - 1) = true := by decide

/-! ### Decoding: the 82 bits written out from R53 and R55, ignored bits set as in 95_test_vectors.md section 2.5 -/

theorem test_decode_word_encode :
    decodeTableWord 82 0b0000111111111100000000000000000000000000000000000000000000000000001111111111111111
      = some (.encode 0x3FF0000000000000) := by decide

theorem test_decode_word_decode :
    decodeTableWord 82 0b0111111111111111111111111111111111111111111111111100111100000000001010101111001101
      = some (.decode 0x3C00) := by decide

theorem test_decode_word_mul :
    decodeTableWord 82 0b1000010010001101000101011001111000000000000000000001000000000000000100001000000000
      = some (.mul 0x4000 0x4200) := by decide

theorem test_decode_word_add :
    decodeTableWord 82 0b1100000000000000001101111010101101000000000000000000111100000000000011110000000000
      = some (.add 0x3C00 0x3C00) := by decide

/-- R53: op[1] is bit 81, x[63] is bit 79, y[0] is bit 0. -/
theorem test_word_bit_positions :
    splitWord (BitVec.ofNat 82 (2 ^ 81)) = { op := 0b10, x := 0, y := 0 } ∧
    splitWord (BitVec.ofNat 82 (2 ^ 79)) = { op := 0, x := 0x8000000000000000, y := 0 } ∧
    splitWord 1 = { op := 0, x := 0, y := 1 } := by decide

/-- R53 and R54: op is bits 81..80, and the words above keep op and the operand bits and lose the ignored bits. -/
theorem test_read_mask :
    readMask 0b00 = 0x3FFFFFFFFFFFFFFFF0000 ∧ readMask 0b01 = 0x3000000000000FFFF0000 ∧
    readMask 0b10 = 0x3000000000000FFFFFFFF ∧ readMask 0b11 = 0x3000000000000FFFFFFFF ∧
    0x03FF0000000000000FFFF &&& readMask 0b00 = 0x03FF00000000000000000 ∧
    0x1FFFFFFFFFFFF3C00ABCD &&& readMask 0b01 = 0x10000000000003C000000 ∧
    0x212345678000040004200 &&& readMask 0b10 = 0x200000000000040004200 ∧
    0x30000DEAD00003C003C00 &&& readMask 0b11 = 0x30000000000003C003C00 := by decide

/-! ### One step of each operation -/

/-- The wrapper's output after one step from reset with the word `w` placed on the input ports. -/
def outputOf (w : Nat) : Option (BitVec 64) :=
  match step (State.reset.withFetchWord 82 w) with
  | .next s => some s.r
  | .refused _ => none

/-- 95_test_vectors.md section 2.5: ENCODE 1.0 with y ignored, ENCODE −1.0 with r[63:16] = 0. -/
theorem test_encode_step :
    outputOf 0x03FF0000000000000FFFF = some 0x3C00 ∧ outputOf 0x0BFF00000000000000000 = some 0xBC00 := by decide

/-- 95_test_vectors.md section 2.1: truncation of 0.1, the largest value below 65536 and 65536, the largest value below
2^-14 and 2^-14, −2^-25, −0.0, the NaN 0x7FF4000000000000. -/
theorem test_encode_boundaries :
    fpEncode specConfig 0x3FB999999999999A = 0x2E66 ∧ fpEncode specConfig 0x40EFFFFFFFFFFFFF = 0x7BFF ∧
    fpEncode specConfig 0x40F0000000000000 = 0x7C00 ∧ fpEncode specConfig 0x3F0FFFFFFFFFFFFF = 0x03FF ∧
    fpEncode specConfig 0x3F10000000000000 = 0x0400 ∧ fpEncode specConfig 0xBE60000000000000 = 0x8000 ∧
    fpEncode specConfig 0x8000000000000000 = 0x0000 ∧ fpEncode specConfig 0x7FF4000000000000 = 0x7E00 := by decide

/-- 95_test_vectors.md section 2.5: DECODE 1.0 with ignored bits set, DECODE −0. -/
theorem test_decode_step :
    outputOf 0x1FFFFFFFFFFFF3C00ABCD = some 0x3FF0000000000000 ∧
    outputOf 0x100000000000080000000 = some 0x8000000000000000 := by decide

/-- 95_test_vectors.md section 2.2: the smallest and largest denormal, −65504, +Infinity, a NaN with sign. -/
theorem test_decode_boundaries :
    fpDecode specConfig 0x0001 = 0x3E70000000000000 ∧ fpDecode specConfig 0x03FF = 0x3F0FF80000000000 ∧
    fpDecode specConfig 0xFBFF = 0xC0EFFC0000000000 ∧ fpDecode specConfig 0x7C00 = 0x7FF0000000000000 ∧
    fpDecode specConfig 0xFC01 = 0xFFF8020000000000 := by decide

/-- 95_test_vectors.md section 2.5: MUL 2 times 3 with x[63:16] ignored, MUL Infinity times zero. -/
theorem test_mul_step :
    outputOf 0x212345678000040004200 = some 0x4600 ∧ outputOf 0x20000000000007C000000 = some 0x7C01 := by decide

/-- 95_test_vectors.md section 2.3: truncation, −0 times 2, underflow to −0, the overflow boundary, −Infinity squared,
−Infinity times a negative denormal. -/
theorem test_mul_boundaries :
    fpMultiply specConfig 0x3555 0x4200 = 0x3BFF ∧ fpMultiply specConfig 0x8000 0x4000 = 0x0000 ∧
    fpMultiply specConfig 0xB800 0x0001 = 0x8000 ∧ fpMultiply specConfig 0x5BFF 0x5C00 = 0x7BFF ∧
    fpMultiply specConfig 0x5C00 0x5C00 = 0x7C00 ∧ fpMultiply specConfig 0xFC00 0xFC00 = 0x7C00 ∧
    fpMultiply specConfig 0xFC00 0x8001 = 0x7C00 := by decide

/-- 95_test_vectors.md section 2.5: ADD 1 plus 1 with x[63:16] ignored, ADD of opposite Infinities. -/
theorem test_add_step :
    outputOf 0x30000DEAD00003C003C00 = some 0x4000 ∧ outputOf 0x30000000000007C00FC00 = some 0x7C01 := by decide

/-- 95_test_vectors.md section 2.4: cancellation, −0 plus −0, a borrow out of the normal range, truncation of 1000.25,
the overflow boundary, Infinity plus a finite operand of the other sign. -/
theorem test_add_boundaries :
    fpAdd specConfig 0x3C00 0xBC00 = 0x0000 ∧ fpAdd specConfig 0x8000 0x8000 = 0x0000 ∧
    fpAdd specConfig 0x0400 0x8001 = 0x03FF ∧ fpAdd specConfig 0x63D0 0x3400 = 0x63D0 ∧
    fpAdd specConfig 0x7BFF 0x4C00 = 0x7BFF ∧ fpAdd specConfig 0x7BFF 0x5000 = 0x7C00 ∧
    fpAdd specConfig 0x7C00 0xFBFF = 0x7C00 := by decide

/-- R130, R131 and 95_test_vectors.md section 3, P1: two lines of a program, the second reading the first one's held
result. -/
theorem test_program_holds_results :
    (match runProgram [] [⟨0b00, .pattern (.binary64 0x3FF8000000000000), none⟩,
        ⟨0b10, .held 0, some (.pattern (.sbfp 0x4000))⟩] State.reset with
      | .ok p => some p.1
      | .error _ => none) = some [.sbfp 0x3E00, .sbfp 0x4200] := by decide

/-- R54 and R58: MUL without its second operand, MUL of a binary64, ENCODE of an SBFP pattern, DECODE with a second
operand and a result not yet held have no meaning, and the program stops (log entry 17). -/
theorem test_malformed_lines_stop :
    placeValues 0b10 (.sbfp 0x4000, none) = .error .malformedLine ∧
    placeValues 0b10 (.sbfp 0x4000, some (.binary64 0x4000000000000000)) = .error .malformedLine ∧
    placeValues 0b00 (.sbfp 0x4000, none) = .error .malformedLine ∧
    placeValues 0b01 (.sbfp 0x4000, some (.sbfp 0)) = .error .malformedLine ∧
    operandValue [] (.held 0) = .error (.valueNotHeld 0) := ⟨rfl, rfl, rfl, rfl, rfl⟩

/-! ### Witnesses for the statements' hypotheses -/

/-- The state after power-up with `x` and `y` left as given and `o` driven on op. -/
def withInputs (o : BitVec 2) (x : Input 64) (y : Input 16) : State :=
  { State.reset with op := Input.full o, x := x, y := y }

theorem witness_DecodeOfEncodeIsIdentity : (Instr.add 0x3C00 0x8000).wf = true := by decide

/-- A word of each operation with its ignored bits set. -/
theorem witness_EncodeOfDecodeClearsIgnoredBits :
    decodeWord 0x03FF0000000000000FFFF = .ok (.encode 0x3FF0000000000000) ∧
    decodeWord 0x1FFFFFFFFFFFF3C00ABCD = .ok (.decode 0x3C00) ∧
    decodeWord 0x212345678000040004200 = .ok (.mul 0x4000 0x4200) ∧
    decodeWord 0x30000DEAD00003C003C00 = .ok (.add 0x3C00 0x3C00) := ⟨rfl, rfl, rfl, rfl⟩

theorem witness_SampleWordsDecode : 2 ^ 82 ≤ 2 ^ 82 + 5 := by decide

/-- ENCODE with y wired to the output, and DECODE with only x[15:0] driven. -/
theorem witness_StepRunsDecodedInstruction :
    DrivesTuple (withInputs 0b00 (Input.full 0x3FF0000000000000) .ownOutput)
      { op := 0b00, x := 0x3FF0000000000000, y := 0 } ∧
    DrivesTuple (withInputs 0b01 (.host 0x3C00 0xFFFF) (.host 0 0)) { op := 0b01, x := 0x3C00, y := 0 } :=
  ⟨⟨.inr ⟨_, _, rfl, by decide, by decide⟩, .inr ⟨_, _, rfl, by decide, by decide⟩, .inl (by decide)⟩,
   ⟨.inr ⟨_, _, rfl, by decide, by decide⟩, .inr ⟨_, _, rfl, by decide, by decide⟩, .inl (by decide)⟩⟩

theorem witness_StepAfterPlacingWord :
    decodeTableWord 88 0x30000DEAD00003C003C00 = some (.add 0x3C00 0x3C00) := by decide

theorem witness_StepCompletesExactlyOnDrivenInputs :
    ¬ ∃ t, DrivesTuple { State.reset with op := .ownOutput } t := by
  rintro ⟨t, h | ⟨_, _, h, -⟩, -⟩
  · exact absurd h (by decide)
  · cases h

/-- One undriven bit on op, on x[15] under DECODE, and on y[0] under MUL. -/
theorem witness_UndrivenInputIsRefused :
    (0b01 : BitVec 2) ≠ BitVec.allOnes 2 ∧
    (Drives (withInputs 0b01 (.host 0 0x7FFF) (Input.full 0)).op (BitVec.allOnes 2) 0b01 ∧
      (0x7FFF : BitVec 64) &&& readMaskX 0b01 ≠ readMaskX 0b01) ∧
    (Drives (withInputs 0b10 (Input.full 0) (.host 0 0xFFFE)).op (BitVec.allOnes 2) 0b10 ∧
      Drives (withInputs 0b10 (Input.full 0) (.host 0 0xFFFE)).x (readMaskX 0b10) 0 ∧
      (0xFFFE : BitVec 16) &&& readMaskY 0b10 ≠ readMaskY 0b10) :=
  ⟨by decide, ⟨.inr ⟨_, _, rfl, by decide, by decide⟩, by decide⟩,
   ⟨.inr ⟨_, _, rfl, by decide, by decide⟩, .inr ⟨_, _, rfl, by decide, by decide⟩, by decide⟩⟩

/-- op wired; x wired under ADD; y wired under ADD; y wired under DECODE. -/
theorem witness_OwnOutputLoopIsRefused :
    ({ State.reset with op := .ownOutput } : State).op = .ownOutput ∧
    (Drives (withInputs 0b11 .ownOutput (Input.full 0)).op (BitVec.allOnes 2) 0b11 ∧
      (withInputs 0b11 .ownOutput (Input.full 0)).x = .ownOutput) ∧
    (∀ o, o = 0b11 ∨ o = 0b01 → Drives (withInputs o (Input.full 0) .ownOutput).op (BitVec.allOnes 2) o ∧
      Drives (withInputs o (Input.full 0) .ownOutput).x (readMaskX o) 0 ∧
      (withInputs o (Input.full 0) .ownOutput).y = .ownOutput) := by
  refine ⟨rfl, ⟨.inr ⟨_, _, rfl, by decide, by decide⟩, rfl⟩, ?_⟩
  rintro o (rfl | rfl) <;>
    exact ⟨.inr ⟨_, _, rfl, by decide, by decide⟩, .inr ⟨_, _, rfl, by decide, by decide⟩, rfl⟩

/-- One invocation of each operation. -/
theorem witness_InvocationFrame :
    ∀ i ∈ [Instr.encode 0x3FF0000000000000, .decode 0x3C00, .mul 0x4000 0x4200, .add 0x3C00 0x3C00],
      ∃ s', exec i State.reset = .next s' := by
  intro i hi
  simp only [List.mem_cons, List.not_mem_nil, or_false] at hi
  rcases hi with rfl | rfl | rfl | rfl <;> exact ⟨_, rfl⟩

theorem witness_InvocationIsIdempotent :
    ∃ s', step (withInputs 0b10 (Input.full 0x4000) (Input.full 0x4200)) = .next s' := ⟨_, rfl⟩

/-- DECODE 1.0 twice: ignored bits undriven and y wired, then every bit driven. -/
theorem witness_ResultDependsOnReadBitsOnly :
    DrivesTuple (withInputs 0b01 (.host 0x3C00 0xFFFF) .ownOutput) { op := 0b01, x := 0x3C00, y := 0 } ∧
    DrivesTuple (withInputs 0b01 (Input.full 0xFFFFFFFFFFFF3C00) (Input.full 0xABCD))
      { op := 0b01, x := 0xFFFFFFFFFFFF3C00, y := 0xABCD } ∧
    (0x3C00 : BitVec 64) &&& readMaskX 0b01 = 0xFFFFFFFFFFFF3C00 &&& readMaskX 0b01 ∧
    (0 : BitVec 16) &&& readMaskY 0b01 = 0xABCD &&& readMaskY 0b01 ∧
    (∃ s', step (withInputs 0b01 (.host 0x3C00 0xFFFF) .ownOutput) = .next s') ∧
    (∃ s', step (withInputs 0b01 (Input.full 0xFFFFFFFFFFFF3C00) (Input.full 0xABCD)) = .next s') :=
  ⟨⟨.inr ⟨_, _, rfl, by decide, by decide⟩, .inr ⟨_, _, rfl, by decide, by decide⟩, .inl (by decide)⟩,
   ⟨.inr ⟨_, _, rfl, by decide, by decide⟩, .inr ⟨_, _, rfl, by decide, by decide⟩, .inl (by decide)⟩,
   by decide, by decide, ⟨_, rfl⟩, ⟨_, rfl⟩⟩

theorem witness_InstancesAreIndependent :
    (0 : Fin 2) ≠ 1 ∧ (∃ c₁ c₂ : Vector State 2,
      stepInstance 0 (Vector.replicate 2 State.reset) = .next c₁ ∧ stepInstance 1 c₁ = .next c₂) ∧
    DrivesTuple State.reset { op := 0, x := 0, y := 0 } :=
  ⟨by decide, ⟨_, _, rfl, rfl⟩,
   .inr ⟨_, _, rfl, by decide, by decide⟩, .inr ⟨_, _, rfl, by decide, by decide⟩, .inl (by decide)⟩

/-- A settled state in which ENCODE of 1.0 has run, about to run MUL 2 times 3. -/
def settledState : State :=
  { withInputs 0b10 (Input.full 0x4000) (Input.full 0x4200) with
    encoder := { value := 0x3FF0000000000000, result := 0x3C00 } }

theorem witness_StepKeepsOutputsSettled : Settled settledState ∧ ∃ s', step settledState = .next s' :=
  ⟨⟨by decide, by decide, by decide, by decide⟩, ⟨_, rfl⟩⟩

theorem witness_FiniteValuesAreOrdered :
    (classOf 0x0001 = .finite ∧ classOf 0x7BFF = .finite ∧ sbfpSign 0x0001 = 0 ∧ sbfpSign 0x7BFF = 0) ∧
    (classOf 0x8000 = .finite ∧ classOf 0xFBFF = .finite ∧ sbfpSign 0x8000 = 1 ∧ sbfpSign 0xFBFF = 1) ∧
    real 0x0000 = real 0x8000 := by decide +kernel

theorem witness_EncodeIsEncodeQ : binary64Exp 0x3FF0000000000000 ≠ 2047 := by decide

/-- −Infinity, a NaN with bits 50..41 set and one without. -/
theorem witness_EncodeHostInfinityAndNaN :
    (binary64Exp 0xFFF0000000000000 = 2047 ∧ binary64Frac 0xFFF0000000000000 = 0) ∧
    (binary64Exp 0x7FF4000000000000 = 2047 ∧ binary64Frac 0x7FF4000000000000 ≠ 0 ∧
      (0x7FF4000000000000 : Binary64).extractLsb' 41 10 ≠ 0) ∧
    (binary64Exp 0x7FF0000000000001 = 2047 ∧ binary64Frac 0x7FF0000000000001 ≠ 0 ∧
      (0x7FF0000000000001 : Binary64).extractLsb' 41 10 = 0) := by decide

theorem witness_EncodeRecordsSign :
    binary64Exp 0xBFF0000000000000 ≠ 2047 ∧ real64 0xBFF0000000000000 < 0 := by decide +kernel

/-- 65536 itself. -/
theorem witness_EncodeSaturates :
    binary64Exp 0xC0F0000000000000 ≠ 2047 ∧ 65536 ≤ ⌊|real64 0xC0F0000000000000|⌋₊ := by decide +kernel

/-- The largest binary64 below 2^-14 is on the denormal path. -/
theorem witness_EncodeDenormalThreshold :
    binary64Exp 0x3F0FFFFFFFFFFFFF ≠ 2047 ∧ ⌊|real64 0x3F0FFFFFFFFFFFFF|⌋₊ = 0 ∧
    |real64 0x3F0FFFFFFFFFFFFF| < 2 ^ (-14 : ℤ) := by decide +kernel

/-- The largest binary64 below 2^-24, with sign. -/
theorem witness_EncodeUnderflowsToSignedZero :
    binary64Exp 0xBE6FFFFFFFFFFFFF ≠ 2047 ∧ real64 0xBE6FFFFFFFFFFFFF ≠ 0 ∧
    |real64 0xBE6FFFFFFFFFFFFF| < 2 ^ (-24 : ℤ) := by decide +kernel

/-- Both ends of [65504, 65536). -/
theorem witness_EncodeSaturationNeighbourhood :
    (binary64Exp 0x40EFFC0000000000 ≠ 2047 ∧ 65504 ≤ |real64 0x40EFFC0000000000| ∧
      |real64 0x40EFFC0000000000| < 65536) ∧
    (binary64Exp 0xC0EFFFFFFFFFFFFF ≠ 2047 ∧ 65504 ≤ |real64 0xC0EFFFFFFFFFFFFF| ∧
      |real64 0xC0EFFFFFFFFFFFFF| < 65536) := by decide +kernel

/-- 2^-14 on the normalized path, the largest binary64 below it on the denormal path. -/
theorem witness_EncodeTruncatesTowardZero :
    (binary64Exp 0x3F10000000000000 ≠ 2047 ∧ |real64 0x3F10000000000000| < 65536 ∧
      2 ^ (-14 : ℤ) ≤ |real64 0x3F10000000000000|) ∧
    (binary64Exp 0x3F0FFFFFFFFFFFFF ≠ 2047 ∧ |real64 0x3F0FFFFFFFFFFFFF| < 2 ^ (-14 : ℤ)) := by decide +kernel

theorem witness_EncodeNegationFlipsSign :
    binary64Exp 0x0000000000000001 ≠ 2047 ∧ real64 0x0000000000000001 ≠ 0 := by decide +kernel

theorem witness_DecodeIsExactAndUnique : classOf 0x8000 = .finite ∧ classOf 0x0001 = .finite := by decide

theorem witness_DecodeNaNIsQuietAndCarried : classOf 0xFC01 = .nan := by decide

theorem witness_DecodeIsInjective :
    ∃ t t' : State, exec (.decode 0x7C01) State.reset = .next t ∧
      exec (.decode 0x7C01) settledState = .next t' ∧ t.r = t'.r := ⟨_, _, rfl, rfl, rfl⟩

/-- A row of each kind: NaN, two Infinities, Infinity and a zero, Infinity and a denormal. -/
theorem witness_MulFollowsSpecialTable :
    mulTable 0x0000 0x7E00 = some 0x7C01 ∧ mulTable 0xFC00 0xFC00 = some 0x7C00 ∧
    mulTable 0x8000 0xFC00 = some 0x7C01 ∧ mulTable 0x0001 0xFC00 = some 0xFC00 := by decide

theorem witness_MulInfinitySignIsXor :
    ((classOf 0x7C00).isInf = true ∧ (classOf 0xFC00).isInf = true) ∧
    ((classOf 0xFC00).isInf = true ∧ classOf 0x8001 = .finite ∧ isZero 0x8001 = false) ∧
    (classOf 0xFBFF = .finite ∧ isZero 0xFBFF = false ∧ (classOf 0x7C00).isInf = true) := by decide

theorem witness_MulIsTruncatedExactProduct :
    classOf 0x3555 = .finite ∧ classOf 0x4200 = .finite := by decide

theorem witness_MulMatchesIntegerDatapath :
    classOf 0x03FF = .finite ∧ classOf 0xFBFF = .finite := by decide

theorem witness_MulZeroProductIsPositiveZero :
    classOf 0x8000 = .finite ∧ classOf 0x4000 = .finite ∧ isZero 0x8000 = true := by decide

/-- 256 times 256, −2^-14 times 2^-14, 255.875 times 256. -/
theorem witness_MulResultRanges :
    (classOf 0x5C00 = .finite ∧ 65536 ≤ |real 0x5C00 * real 0x5C00|) ∧
    (classOf 0x8400 = .finite ∧ classOf 0x0400 = .finite ∧ real 0x8400 * real 0x0400 ≠ 0 ∧
      |real 0x8400 * real 0x0400| < 2 ^ (-24 : ℤ)) ∧
    (classOf 0x5BFF = .finite ∧ |real 0x5BFF * real 0x5C00| < 65536) := by decide +kernel

/-- A row of each kind: NaN, equal Infinities, opposite Infinities, Infinity and a zero. -/
theorem witness_AddFollowsSpecialTable :
    addTable (classOf 0x3C00) (classOf 0xFE00) = some 0x7C01 ∧
    addTable (classOf 0xFC00) (classOf 0xFC00) = some 0xFC00 ∧
    addTable (classOf 0x7C00) (classOf 0xFC00) = some 0x7C01 ∧
    addTable (classOf 0x8000) (classOf 0xFC00) = some 0xFC00 := by decide

theorem witness_AddIsTruncatedExactSum :
    classOf 0x4248 = .finite ∧ classOf 0xC16F = .finite := by decide

/-- The widest alignment: 29 places. -/
theorem witness_AddMatchesIntegerDatapath :
    classOf 0x7BFF = .finite ∧ classOf 0x0001 = .finite := by decide

theorem witness_AddZeroSumIsPositiveZero :
    classOf 0x8001 = .finite ∧ classOf 0x0001 = .finite ∧ real 0x8001 + real 0x0001 = 0 := by decide +kernel

/-- 65504 plus 32, 65504 plus 16, and a doubling. -/
theorem witness_AddResultRanges :
    (classOf 0x7BFF = .finite ∧ classOf 0x5000 = .finite ∧ 65536 ≤ |real 0x7BFF + real 0x5000|) ∧
    (classOf 0x4C00 = .finite ∧ |real 0x7BFF + real 0x4C00| < 65536) ∧
    2 * |real 0x03FF| < 65536 := by decide +kernel

theorem witness_AddZeroIsIdentity : isZero 0x0000 = true ∧ isZero 0x8000 = true := by decide

/-- One invocation for each condition that can hold. -/
theorem witness_ConditionsShowOnlyInResult :
    Condition.holds .overflow (.mul 0x5C00 0x5C00) = true ∧
    Condition.holds .underflow (.mul 0x8400 0x0400) = true ∧
    Condition.holds .inexact (.add 0x3C00 0x1000) = true ∧
    Condition.holds .invalid (.add 0x7C00 0xFC00) = true ∧
    Condition.holds .hostSpecial (.encode 0x7FF0000000000000) = true ∧
    (exactResult (.mul 0x5C00 0x5C00)).isSome = true ∧ (exactResult (.mul 0x8400 0x0400)).isSome = true := by decide

/-- The spec's own parameter values are legal. -/
theorem witness_NaNResultsUnderAnyLegalConfig : LegalConfig specConfig := by
  refine ⟨fun d _ _ => ?_, fun h _ => ⟨by simp [specConfig], ?_⟩, by decide⟩
  · rw [classOf_eq_nan_iff]
    simp only [specConfig, sbfpExp_pack, sbfpFrac_pack]
    refine ⟨rfl, ?_⟩
    split
    · decide
    · assumption
  · simp only [specConfig, binary64Frac_pack, quietNaNFrac]
    have := (sbfpFrac h).isLt
    intro h0
    have h1 := congrArg BitVec.toNat h0
    simp only [BitVec.ofNat_eq_ofNat, BitVec.toNat_ofNat] at h1
    omega

end Sys2Proof.Tests
end

section
/-! PROOFS. ENCODE at its thresholds: saturation (R62), the denormal path (R63) and underflow (R74). encodeQ is said
once per path, and every statement about ENCODE of a finite input goes through the value it encodes (R69). -/

namespace Sys2Proof.Machine

/-! ### encodeQ, one lemma per path -/

theorem encodeQ_of_overflow {v : ℚ} (h : 2 ^ 16 ≤ |v|) : encodeQ v = pack (if v < 0 then 1 else 0) 31 0 :=
  if_pos h

theorem encodeQ_of_denormal {v : ℚ} (h : |v| < 2 ^ (-14 : ℤ)) :
    encodeQ v = pack (if v < 0 then 1 else 0) 0 (BitVec.ofNat 10 ⌊|v| * 2 ^ 24⌋₊) := by
  have hlt : ¬ (2 : ℚ) ^ 16 ≤ |v| := not_le.2 (h.trans (by norm_num))
  rw [encodeQ, if_neg hlt, if_pos h]

theorem encodeQ_of_normal {v : ℚ} (hlo : 2 ^ (-14 : ℤ) ≤ |v|) (hhi : |v| < 2 ^ 16) :
    encodeQ v = pack (if v < 0 then 1 else 0) (BitVec.ofInt 5 (Int.log 2 |v| + 15))
      (BitVec.ofNat 10 ⌊(|v| / 2 ^ Int.log 2 |v| - 1) * 2 ^ 10⌋₊) := by
  rw [encodeQ, if_neg (not_le.2 hhi), if_neg (not_lt.2 hlo)]

/-- The normalized path has unbiased exponents -14 to 15 (R65, R71). -/
theorem log_range_of_normal {q : ℚ} (hlo : 2 ^ (-14 : ℤ) ≤ q) (hhi : q < 2 ^ 16) :
    -14 ≤ Int.log 2 q ∧ Int.log 2 q < 16 := by
  have hq : 0 < q := lt_of_lt_of_le (by positivity) hlo
  exact ⟨(Int.zpow_le_iff_le_log one_lt_two hq).1 (by exact_mod_cast hlo),
    (Int.lt_zpow_iff_log_lt one_lt_two hq).1 (by exact_mod_cast hhi)⟩

/-- An unbiased exponent of the normalized path has a nonzero exponent field. -/
theorem biasedField_ne_zero {E : ℤ} (hlo : -14 ≤ E) (hhi : E < 16) : BitVec.ofInt 5 (E + 15) ≠ 0 := by
  intro h
  have hn : ((E + 15) % (2 ^ 5 : ℕ)).toNat = 0 := by rw [← BitVec.toNat_ofInt, h]; rfl
  omega

/-- The exponent field of encodeQ is 0 on the denormal path and on no other (R63, R64). -/
theorem sbfpExp_encodeQ_eq_zero_iff (v : ℚ) : sbfpExp (encodeQ v) = 0 ↔ |v| < 2 ^ (-14 : ℤ) := by
  rcases lt_or_ge |v| (2 ^ (-14 : ℤ)) with hd | hlo
  · exact iff_of_true (by rw [encodeQ_of_denormal hd, sbfpExp_pack]) hd
  · refine iff_of_false ?_ (not_lt.2 hlo)
    rcases lt_or_ge |v| (2 ^ 16) with hhi | ho
    · obtain ⟨hE, hE'⟩ := log_range_of_normal hlo hhi
      rw [encodeQ_of_normal hlo hhi, sbfpExp_pack]
      exact biasedField_ne_zero hE hE'
    · rw [encodeQ_of_overflow ho, sbfpExp_pack]
      decide

/-- Below the smallest denormal every fraction bit is truncated away (R74). -/
theorem encodeQ_of_underflow {v : ℚ} (h : |v| < 2 ^ (-24 : ℤ)) : encodeQ v = pack (if v < 0 then 1 else 0) 0 0 := by
  have hfloor : ⌊|v| * 2 ^ 24⌋₊ = 0 := by
    rw [Nat.floor_eq_zero, ← lt_div_iff₀ (by positivity), one_div]
    exact_mod_cast h
  rw [encodeQ_of_denormal (h.trans (by norm_num)), hfloor]; rfl

/-- The smallest normal, where the denormal path ends (R63, C3). -/
theorem encodeQ_denormal_threshold : encodeQ (2 ^ (-14 : ℤ)) = 0x0400 := by
  have habs : |(2 : ℚ) ^ (-14 : ℤ)| = 2 ^ (-14 : ℤ) := abs_of_pos (by positivity)
  have hlog : Int.log 2 ((2 : ℚ) ^ (-14 : ℤ)) = -14 := by
    exact_mod_cast Int.log_zpow (R := ℚ) one_lt_two (-14)
  have hsign : ¬ (2 : ℚ) ^ (-14 : ℤ) < 0 := not_lt.2 (by positivity)
  rw [encodeQ_of_normal habs.ge (by rw [habs]; norm_num), habs, hlog, if_neg hsign, div_self (by positivity), sub_self,
    zero_mul, Nat.floor_zero]
  decide

/-! ### The meaning of ENCODE on a finite input -/

/-- ENCODE of a finite input delivers encodeQ of its value (R59, R69). -/
theorem exec_encode_finite {d : Binary64} {c : Sbfp} (hd : binary64Exp d ≠ 2047) (hc : encodeQ (real64 d) = c)
    (s : State) : exec (.encode d) s = .next (s.deliverEncoder d c) := by
  have hfp : fpEncode specConfig d = c := by
    rw [fpEncode, if_neg hd, encodeExact_eq, exact64_toRat, hc]
  rw [← hfp]; rfl

/-! ### The obligations -/

/-- Settles O23: both branches of the sign reduce to the overflow path of encodeQ. -/
theorem encodeSaturates : Obligations.EncodeSaturates := by
  intro d s hd
  have hfloor : 65536 ≤ ⌊|real64 d|⌋₊ ↔ 65536 ≤ |real64 d| := by
    rw [Nat.le_floor_iff (abs_nonneg _), Nat.cast_ofNat]
  refine ⟨hfloor, fun h => ?_⟩
  have hover : (2 : ℚ) ^ 16 ≤ |real64 d| := by norm_num [hfloor.1 h]
  rw [exec_encode_finite hd (encodeQ_of_overflow hover)]
  split <;> rfl

/-- Settles O24: the integer part of a magnitude below 2^-14 is 0, and the exponent field of encodeQ tells the path. -/
theorem encodeDenormalThreshold : Obligations.EncodeDenormalThreshold := by
  have hreal : real64 0x3F10000000000000 = 2 ^ (-14 : ℤ) := by decide +kernel
  refine ⟨fun d s hd => ⟨_, exec_encode_finite hd rfl s, ?_⟩, hreal, fun s => ?_⟩
  · have hpath : (⌊|real64 d|⌋₊ = 0 ∧ |real64 d| < 2 ^ (-14 : ℤ)) ↔ |real64 d| < 2 ^ (-14 : ℤ) :=
      and_iff_right_of_imp fun h => Nat.floor_eq_zero.2 (h.trans (by norm_num))
    exact ⟨(sbfpExp_encodeQ_eq_zero_iff _).trans hpath.symm, hpath⟩
  · exact exec_encode_finite (by decide) (hreal ▸ encodeQ_denormal_threshold) s

/-- Settles O25: the denormal path with no fraction bit left, and the two inputs that R74 names evaluated. -/
theorem encodeUnderflowsToSignedZero : Obligations.EncodeUnderflowsToSignedZero := by
  refine ⟨fun d s hd _ hlt => ?_, ?_, by decide +kernel, by decide +kernel⟩
  · rw [exec_encode_finite hd (encodeQ_of_underflow hlt)]
    split <;> rfl
  · rintro d (rfl | rfl) <;> decide +kernel

end Sys2Proof.Machine
end

section
/-! PROOFS. DECODE of the Infinities (R78, R85): every pattern of an infinite class takes the decoder's first branch,
whatever the parameters of R9 are. -/

namespace Sys2Proof.Machine

/-- An SBFP Infinity decodes to the binary64 Infinity of its sign, under every configuration (R78). -/
theorem fpDecode_of_isInf (c : Config) {h : Sbfp} (hinf : (classOf h).isInf = true) :
    fpDecode c h = packBinary64 (sbfpSign h) 2047 0 := by
  obtain ⟨hexp, hfrac⟩ := (classOf_isInf_iff h).1 hinf
  rw [fpDecode, if_pos (show sbfpExp h = reservedExponent from hexp), if_pos hfrac]

/-- DECODE of an Infinity delivers the binary64 Infinity of its sign (R76, R78). -/
theorem exec_decode_infinity {h : Sbfp} (hinf : (classOf h).isInf = true) (s : State) :
    exec (.decode h) s = .next (s.deliverDecoder h (packBinary64 (sbfpSign h) 2047 0)) := by
  rw [← fpDecode_of_isInf specConfig hinf]; rfl

/-- Settles O32: both patterns are Infinities, and the sign bit alone tells their results apart. -/
theorem decodeInfinities : Obligations.DecodeInfinities := by
  have hpos : packBinary64 (sbfpSign posInf) 2047 0 = 0x7FF0000000000000 := by decide
  have hneg : packBinary64 (sbfpSign negInf) 2047 0 = 0xFFF0000000000000 := by decide
  intro s
  constructor
  · exact hpos ▸ exec_decode_infinity (h := posInf) (by decide) s
  · exact hneg ▸ exec_decode_infinity (h := negInf) (by decide) s

end Sys2Proof.Machine
end

section
/-! PROOFS. MUL with an Infinity and no zero (R89, R90): with NaN and Infinity times zero excluded, the multiplier
reaches its Infinity branch, whatever the parameters of R9 are. -/

namespace Sys2Proof.Machine

/-! ### What an Infinity is not -/

theorem classOf_ne_nan_of_isInf {h : Sbfp} (hinf : (classOf h).isInf = true) : classOf h ≠ .nan := by
  intro hnan
  rw [hnan] at hinf
  exact absurd hinf (by decide)

/-- An Infinity has the reserved exponent field, a zero the field 0 (R42, R49). -/
theorem isZero_of_isInf {h : Sbfp} (hinf : (classOf h).isInf = true) : isZero h = false := by
  obtain ⟨hexp, -⟩ := (classOf_isInf_iff h).1 hinf
  refine Bool.eq_false_iff.2 fun hzero => ?_
  obtain ⟨hexp0, -⟩ := (isZero_iff h).1 hzero
  exact absurd (hexp.symm.trans hexp0) (by decide)

/-! ### The Infinity branch of MUL -/

/-- An Infinity times an operand that is neither NaN nor zero, in either order, under every configuration (R89,
R90). -/
theorem fpMultiply_of_isInf (c : Config) {a b : Sbfp} (hinf : (classOf a).isInf = true ∨ (classOf b).isInf = true)
    (hna : classOf a ≠ .nan) (hnb : classOf b ≠ .nan) (hza : isZero a = false) (hzb : isZero b = false) :
    fpMultiply c a b = pack (sbfpSign a ^^^ sbfpSign b) 31 0 := by
  have hnan : ¬ (classOf a = .nan ∨ classOf b = .nan) := not_or.2 ⟨hna, hnb⟩
  have hzero : ¬ (isZero a = true ∨ isZero b = true) := not_or.2 ⟨Bool.eq_false_iff.1 hza, Bool.eq_false_iff.1 hzb⟩
  rw [fpMultiply, if_neg hnan, if_pos hinf, if_neg hzero, reservedExponent]

/-- MUL delivers what the multiplier computes under the spec's parameters (R54, R86). -/
theorem exec_mul_of_fpMultiply {a b c : Sbfp} (hc : fpMultiply specConfig a b = c) (s : State) :
    exec (.mul a b) s = .next (s.deliverMultiplier a b c) := by
  rw [← hc]; rfl

/-- Settles O36: in each of the three cases neither operand is NaN or zero and one of them is an Infinity. -/
theorem mulInfinitySignIsXor : Obligations.MulInfinitySignIsXor := by
  intro a b s hcases
  refine exec_mul_of_fpMultiply ?_ s
  rcases hcases with ⟨ha, hb⟩ | ⟨ha, hfin, hzb⟩ | ⟨hfin, hza, hb⟩
  · exact fpMultiply_of_isInf _ (.inl ha) (classOf_ne_nan_of_isInf ha) (classOf_ne_nan_of_isInf hb)
      (isZero_of_isInf ha) (isZero_of_isInf hb)
  · have hnb : classOf b ≠ .nan := by rw [hfin]; decide
    exact fpMultiply_of_isInf _ (.inl ha) (classOf_ne_nan_of_isInf ha) hnb (isZero_of_isInf ha) hzb
  · have hna : classOf a ≠ .nan := by rw [hfin]; decide
    exact fpMultiply_of_isInf _ (.inr hb) hna (classOf_ne_nan_of_isInf hb) hza (isZero_of_isInf hb)

end Sys2Proof.Machine
end

section
/-! PROOFS. The wrapper word and its tuple (R53 to R57): joining and splitting are inverse, masking acts field by field,
and what decoding forgets of a tuple is exactly the bits that the operation ignores. -/

namespace Sys2Proof

/-! ### Joining and splitting -/

theorem Tuple.eq_of_fields {t u : Tuple} (hop : t.op = u.op) (hx : t.x = u.x) (hy : t.y = u.y) : t = u := by
  cases t; cases u; simp_all

@[simp] theorem splitWord_joinTuple (t : Tuple) : splitWord (joinTuple t) = t := by
  obtain ⟨op, x, y⟩ := t
  have hop := op.isLt; have hx := x.isLt; have hy := y.isLt
  refine Tuple.eq_of_fields ?_ ?_ ?_ <;> apply BitVec.eq_of_toNat_eq <;>
    rw [splitWord, Machine.extract_toNat, Laws.EncodedFields.joinTuple_toNat]
  · show (op.toNat * 2 ^ 80 + x.toNat * 2 ^ 16 + y.toNat) / 2 ^ 80 % 2 ^ 2 = op.toNat
    omega
  · show (op.toNat * 2 ^ 80 + x.toNat * 2 ^ 16 + y.toNat) / 2 ^ 16 % 2 ^ 64 = x.toNat
    omega
  · show (op.toNat * 2 ^ 80 + x.toNat * 2 ^ 16 + y.toNat) / 2 ^ 0 % 2 ^ 16 = y.toNat
    omega

theorem joinTuple_injective : Function.Injective joinTuple := fun t u h => by
  rw [← splitWord_joinTuple t, h, splitWord_joinTuple]

@[simp] theorem joinTuple_splitWord (w : WrapperWord) : joinTuple (splitWord w) = w := by
  apply BitVec.eq_of_toNat_eq
  rw [Laws.EncodedFields.joinTuple_toNat, splitWord, Machine.extract_toNat, Machine.extract_toNat,
    Machine.extract_toNat]
  have := w.isLt
  omega

/-- Masking a word masks its three fields. -/
theorem joinTuple_and (t u : Tuple) :
    joinTuple t &&& joinTuple u = joinTuple { op := t.op &&& u.op, x := t.x &&& u.x, y := t.y &&& u.y } := by
  have hsplit : ∀ v w : WrapperWord, splitWord (v &&& w) =
      { op := (splitWord v).op &&& (splitWord w).op, x := (splitWord v).x &&& (splitWord w).x,
        y := (splitWord v).y &&& (splitWord w).y } := fun v w => by
    simp only [splitWord, BitVec.extractLsb'_and]
  rw [← joinTuple_splitWord (joinTuple t &&& joinTuple u), hsplit, splitWord_joinTuple, splitWord_joinTuple]

/-! ### Decoding and encoding a tuple -/

theorem BitVec2_cases (o : BitVec 2) : o = 0b00#2 ∨ o = 0b01#2 ∨ o = 0b10#2 ∨ o = 0b11#2 := by
  revert o; decide

/-- The low half of x, placed back on x, is x under the mask of the SBFP operand (R54). -/
theorem setWidth_extract_low16 (x : BitVec 64) : (x.extractLsb' 0 16).setWidth 64 = x &&& 0xFFFF#64 := by
  apply BitVec.eq_of_toNat_eq
  have hmask : x.toNat &&& 65535 = x.toNat % 2 ^ 16 := Nat.and_two_pow_sub_one_eq_mod x.toNat 16
  rw [BitVec.toNat_setWidth, Machine.extract_toNat, BitVec.toNat_and,
    show (0xFFFF#64).toNat = 65535 from rfl, hmask]
  omega

@[simp] theorem extract_low16_setWidth (a : Sbfp) : (a.setWidth 64).extractLsb' 0 16 = a := by
  apply BitVec.eq_of_toNat_eq
  rw [Machine.extract_toNat, BitVec.toNat_setWidth]
  have := a.isLt
  omega

/-- The bits of a tuple that its operation reads, with the ignored ones as 0 (R54). -/
def Tuple.readBits (t : Tuple) : Tuple :=
  { op := t.op, x := t.x &&& Machine.readMaskX t.op, y := t.y &&& Machine.readMaskY t.op }

/-- The tuple that the encoder writes decodes to the invocation (R54, R55). -/
@[simp] theorem decodeTuple_encodeTuple (i : Instr) : decodeTuple (encodeTuple i) = i := by
  cases i with
  | encode v => rfl
  | decode v => exact congrArg Instr.decode (extract_low16_setWidth v)
  | mul a b => exact congrArg (Instr.mul · b) (extract_low16_setWidth a)
  | add a b => exact congrArg (Instr.add · b) (extract_low16_setWidth a)

/-- Encoding what a tuple decodes to keeps its read bits and nothing else (R54). -/
theorem encodeTuple_decodeTuple (t : Tuple) : encodeTuple (decodeTuple t) = t.readBits := by
  obtain ⟨o, x, y⟩ := t
  have hx (o : BitVec 2) (ho : o ≠ 0b00#2) : (x.extractLsb' 0 16).setWidth 64 = x &&& Machine.readMaskX o := by
    rw [Machine.readMaskX, if_neg ho, setWidth_extract_low16]
  have hy : y = y &&& BitVec.allOnes 16 := BitVec.and_allOnes.symm
  rcases BitVec2_cases o with rfl | rfl | rfl | rfl
  · exact Tuple.eq_of_fields rfl BitVec.and_allOnes.symm BitVec.and_zero.symm
  · exact Tuple.eq_of_fields rfl (hx 0b01#2 (by decide)) BitVec.and_zero.symm
  · exact Tuple.eq_of_fields rfl (hx 0b10#2 (by decide)) hy
  · exact Tuple.eq_of_fields rfl (hx 0b11#2 (by decide)) hy

/-- Ignored bits have no effect on the instruction (R24, R54). -/
@[simp] theorem decodeTuple_readBits (t : Tuple) : decodeTuple t.readBits = decodeTuple t := by
  rw [← encodeTuple_decodeTuple, decodeTuple_encodeTuple]

@[simp] theorem opBits_decodeTuple (t : Tuple) : (decodeTuple t).opBits = t.op := by
  obtain ⟨o, x, y⟩ := t
  rcases BitVec2_cases o with rfl | rfl | rfl | rfl <;> rfl

/-! ### Words as numerals -/

/-- A numeral decodes exactly when it is a wrapper word, and then to what its tuple selects (R53, R57). -/
theorem decodeWord_eq_ok_iff (w : Nat) (i : Instr) :
    decodeWord w = .ok i ↔ w < 2 ^ 82 ∧ decodeTuple (splitWord (BitVec.ofNat 82 w)) = i := by
  have hfits : fitsWrapperWord w = true ↔ w < 2 ^ 82 := by rw [fitsWrapperWord, decide_eq_true_iff]
  unfold decodeWord
  split
  · next h => simp only [Except.ok.injEq, hfits.1 h, true_and]
  · next h => simp only [reduceCtorEq, false_iff, not_and, mt hfits.2 h, false_implies]

theorem decodeWord_toNat (w : WrapperWord) : decodeWord w.toNat = .ok (decodeTuple (splitWord w)) :=
  (decodeWord_eq_ok_iff _ _).2 ⟨w.isLt, by rw [BitVec.ofNat_toNat, BitVec.setWidth_eq]⟩

/-- With at least 82 bits taken, a wrapper word is taken whole. -/
theorem decodeTableWord_toNat (w : WrapperWord) {nbits : Nat} (hn : 82 ≤ nbits) :
    decodeTableWord nbits w.toNat = some (decodeTuple (splitWord w)) := by
  have hlt : w.toNat < 2 ^ nbits := w.isLt.trans_le (Nat.pow_le_pow_right two_pos hn)
  rw [decodeTableWord, Nat.mod_eq_of_lt hlt, decodeWord_toNat]

theorem decodeTableWord_eq_some_iff (nbits w : Nat) (i : Instr) :
    decodeTableWord nbits w = some i ↔ decodeWord (w % 2 ^ nbits) = .ok i := by
  unfold decodeTableWord
  cases decodeWord (w % 2 ^ nbits) <;> simp

/-! ### Rows of the opcode table -/

/-- The rows' mask keeps op and clears the operands (R55). -/
theorem and_opMask (w : WrapperWord) :
    w &&& 0x300000000000000000000 = joinTuple { op := (splitWord w).op, x := 0, y := 0 } := by
  have hmask : (0x300000000000000000000 : WrapperWord) = joinTuple { op := 0b11, x := 0, y := 0 } := by decide
  have hop : ∀ o : BitVec 2, o &&& 0b11 = o := by decide
  rw [hmask]
  conv_lhs => rw [← joinTuple_splitWord w, joinTuple_and]
  exact congrArg joinTuple (Tuple.eq_of_fields (hop _) BitVec.and_zero BitVec.and_zero)

/-- A word is in the row of op value `o` exactly when its op field is `o` (R55). -/
theorem and_opMask_eq_iff (w : WrapperWord) (o : BitVec 2) :
    w &&& 0x300000000000000000000 = joinTuple { op := o, x := 0, y := 0 } ↔ (splitWord w).op = o := by
  rw [and_opMask, joinTuple_injective.eq_iff]
  simp

/-- The row of an op value (R55). -/
def rowOfOp (o : BitVec 2) : OpcodeRow :=
  { mnemonic := (decodeTuple { op := o, x := 0, y := 0 }).mnemonic
    mask := 0x300000000000000000000
    pattern := joinTuple { op := o, x := 0, y := 0 } }

/-- The opcode table holds one row for each op value and no other (R55, R56). -/
theorem mem_opcodeTable_iff (row : OpcodeRow) : row ∈ opcodeTable ↔ ∃ o, row = rowOfOp o := by
  have htable : opcodeTable = [rowOfOp 0b00#2, rowOfOp 0b01#2, rowOfOp 0b10#2, rowOfOp 0b11#2] := by decide
  rw [htable]
  constructor
  · intro h
    simp only [List.mem_cons, List.not_mem_nil, or_false] at h
    rcases h with rfl | rfl | rfl | rfl <;> exact ⟨_, rfl⟩
  · rintro ⟨o, rfl⟩
    rcases BitVec2_cases o with rfl | rfl | rfl | rfl <;> simp

/-- The mnemonic depends on op alone (R55). -/
theorem mnemonic_decodeTuple (t : Tuple) : (decodeTuple t).mnemonic = (rowOfOp t.op).mnemonic := by
  obtain ⟨o, x, y⟩ := t
  rcases BitVec2_cases o with rfl | rfl | rfl | rfl <;> rfl

/-! ### The obligations -/

/-- Settles O1: the word splits into the encoder's tuple, which decodes to the invocation. -/
theorem decodeOfEncodeIsIdentity : Obligations.DecodeOfEncodeIsIdentity := by
  intro i _
  have hi : decodeTuple (splitWord (encodeWord i)) = i := by
    rw [encodeWord, splitWord_joinTuple, decodeTuple_encodeTuple]
  refine ⟨?_, ?_, ?_⟩
  · rw [decodeWord_toNat, hi]
  · rw [decodeTableWord_toNat _ (by decide), hi]
  · rw [decodeTableWord_toNat _ (by decide), hi]

/-- Settles O2: masking with the read mask is masking each field of the tuple. -/
theorem encodeOfDecodeClearsIgnoredBits : Obligations.EncodeOfDecodeClearsIgnoredBits := by
  intro w i h
  obtain ⟨hw, rfl⟩ := (decodeWord_eq_ok_iff w i).1 h
  have hword : encodeWord (decodeTuple (splitWord (BitVec.ofNat 82 w))) =
      BitVec.ofNat 82 w &&& readMask (splitWord (BitVec.ofNat 82 w)).op := by
    conv_rhs => rw [← joinTuple_splitWord (BitVec.ofNat 82 w), readMask, joinTuple_and, splitWord_joinTuple]
    rw [encodeWord, encodeTuple_decodeTuple, Tuple.readBits, BitVec.and_allOnes]
  rw [hword, opBits_decodeTuple, BitVec.toNat_and, BitVec.toNat_ofNat, Nat.mod_eq_of_lt hw]

/-- Settles O3: the rows are those of the four op values, and a word is in the row of its own op field alone. -/
theorem opcodeRowsPartitionWords : Obligations.OpcodeRowsPartitionWords := by
  intro w
  refine ⟨rowOfOp (splitWord w).op, (mem_opcodeTable_iff _).2 ⟨_, rfl⟩, and_opMask w,
    (mnemonic_decodeTuple _).symm, fun other hmem hin => ?_⟩
  obtain ⟨o, rfl⟩ := (mem_opcodeTable_iff _).1 hmem
  rw [(and_opMask_eq_iff w o).1 hin]

/-- Settles O4: the four words evaluated, and the width check for every wider numeral. -/
theorem sampleWordsDecode : Obligations.SampleWordsDecode := by
  refine ⟨by decide, by decide, by decide, by decide, fun w hw => ?_⟩
  have hwide : ¬ fitsWrapperWord w = true := by
    rw [fitsWrapperWord, decide_eq_true_iff]; exact not_lt.2 hw
  rw [decodeWord, if_neg hwide]

end Sys2Proof
end

section
/-! PROOFS. The step (R22, R24, R126, R133): a driven tuple decides it, the wrapper's output is the function of that
tuple, and a port that is not driven or is wired to the output refuses it, in the order op, x, y. -/

namespace Sys2Proof.Machine

/-! ### What a meaning delivers -/

/-- No meaning faults or refuses (R110, R126). -/
theorem exec_completes (i : Instr) (s : State) : ∃ s', exec i s = .next s' := by
  rcases exec_cases i s with ⟨_, _, h⟩ | ⟨_, _, h⟩ | ⟨_, _, _, h⟩ | ⟨_, _, _, h⟩ <;> exact ⟨_, h⟩

/-- The input ports and the empty core state stand as they were (R33). -/
theorem exec_keeps_inputs {i : Instr} {s s' : State} (h : exec i s = .next s') :
    s'.arch = s.arch ∧ s'.op = s.op ∧ s'.x = s.x ∧ s'.y = s.y := by
  rcases exec_cases i s with ⟨_, _, h'⟩ | ⟨_, _, h'⟩ | ⟨_, _, _, h'⟩ | ⟨_, _, _, h'⟩ <;>
    cases h'.symm.trans h <;> exact ⟨rfl, rfl, rfl, rfl⟩

/-- A unit that op does not select keeps its ports (R33, log 2). -/
theorem exec_keeps_other_units {i : Instr} {s s' : State} (h : exec i s = .next s') :
    (i.opBits ≠ 0b00 → s'.encoder = s.encoder) ∧ (i.opBits ≠ 0b01 → s'.decoder = s.decoder) ∧
    (i.opBits ≠ 0b10 → s'.multiplier = s.multiplier) ∧ (i.opBits ≠ 0b11 → s'.adder = s.adder) := by
  rcases exec_cases i s with ⟨_, rfl, h'⟩ | ⟨_, rfl, h'⟩ | ⟨_, _, rfl, h'⟩ | ⟨_, _, rfl, h'⟩ <;>
    cases h'.symm.trans h
  · exact ⟨fun ho => absurd rfl ho, fun _ => rfl, fun _ => rfl, fun _ => rfl⟩
  · exact ⟨fun _ => rfl, fun ho => absurd rfl ho, fun _ => rfl, fun _ => rfl⟩
  · exact ⟨fun _ => rfl, fun _ => rfl, fun ho => absurd rfl ho, fun _ => rfl⟩
  · exact ⟨fun _ => rfl, fun _ => rfl, fun _ => rfl, fun ho => absurd rfl ho⟩

/-- A 16-bit result on r leaves r[63:16] zero (R24). -/
theorem extract_high48_setWidth (c : Sbfp) : (c.setWidth 64).extractLsb' 16 48 = 0 := by
  apply BitVec.eq_of_toNat_eq
  rw [extract_toNat, BitVec.toNat_setWidth]
  have := c.isLt
  show c.toNat % 2 ^ 64 / 2 ^ 16 % 2 ^ 48 = 0
  omega

/-- Applying the same meaning to its own result gives that result again (R33). -/
theorem exec_idempotent {i : Instr} {s s' : State} (h : exec i s = .next s') : exec i s' = .next s' := by
  rcases exec_cases i s with ⟨_, rfl, h'⟩ | ⟨_, rfl, h'⟩ | ⟨_, _, rfl, h'⟩ | ⟨_, _, rfl, h'⟩ <;>
    cases h'.symm.trans h <;> rfl

section
variable (x : BitVec 64) (y : BitVec 16)

theorem wrapperResult_encode : wrapperResult { op := 0b00#2, x := x, y := y } =
    (fpEncode specConfig x).setWidth 64 := if_pos rfl

theorem wrapperResult_decode : wrapperResult { op := 0b01#2, x := x, y := y } =
    fpDecode specConfig (x.extractLsb' 0 16) := by
  simp [wrapperResult]

theorem wrapperResult_mul : wrapperResult { op := 0b10#2, x := x, y := y } =
    (fpMultiply specConfig (x.extractLsb' 0 16) y).setWidth 64 := by
  simp [wrapperResult]

theorem wrapperResult_add : wrapperResult { op := 0b11#2, x := x, y := y } =
    (fpAdd specConfig (x.extractLsb' 0 16) y).setWidth 64 := by
  simp [wrapperResult]

end

/-- The output of a meaning is the wrapper's function of the instruction's tuple, whatever the state was (R24). -/
theorem exec_r {i : Instr} {s s' : State} (h : exec i s = .next s') : s'.r = wrapperResult (encodeTuple i) := by
  rcases exec_cases i s with ⟨v, rfl, h'⟩ | ⟨v, rfl, h'⟩ | ⟨a, b, rfl, h'⟩ | ⟨a, b, rfl, h'⟩ <;>
    cases h'.symm.trans h
  · rw [encodeTuple, wrapperResult_encode, deliverEncoder_r]
  · rw [encodeTuple, wrapperResult_decode, deliverDecoder_r, extract_low16_setWidth]
  · rw [encodeTuple, wrapperResult_mul, deliverMultiplier_r, extract_low16_setWidth]
  · rw [encodeTuple, wrapperResult_add, deliverAdder_r, extract_low16_setWidth]

/-- Every unit's output stays the function of its inputs (R26, R128). -/
theorem exec_keeps_settled {i : Instr} {s s' : State} (hs : Settled s) (h : exec i s = .next s') : Settled s' := by
  obtain ⟨he, hd, hm, ha⟩ := hs
  rcases exec_cases i s with ⟨_, _, h'⟩ | ⟨_, _, h'⟩ | ⟨_, _, _, h'⟩ | ⟨_, _, _, h'⟩ <;> cases h'.symm.trans h
  · exact ⟨rfl, hd, hm, ha⟩
  · exact ⟨he, rfl, hm, ha⟩
  · exact ⟨he, hd, rfl, ha⟩
  · exact ⟨he, hd, hm, rfl⟩

/-! ### The step on driven inputs -/

/-- The wrapper's function does not see the ignored bits (R24, R54). -/
theorem wrapperResult_encodeTuple_decodeTuple (t : Tuple) :
    wrapperResult (encodeTuple (decodeTuple t)) = wrapperResult t := by
  obtain ⟨o, x, y⟩ := t
  rcases BitVec2_cases o with rfl | rfl | rfl | rfl
  · rw [show decodeTuple _ = .encode x from rfl, encodeTuple, wrapperResult_encode, wrapperResult_encode]
  · rw [show decodeTuple _ = .decode (x.extractLsb' 0 16) from rfl, encodeTuple, wrapperResult_decode,
      wrapperResult_decode, extract_low16_setWidth]
  · rw [show decodeTuple _ = .mul (x.extractLsb' 0 16) y from rfl, encodeTuple, wrapperResult_mul,
      wrapperResult_mul, extract_low16_setWidth]
  · rw [show decodeTuple _ = .add (x.extractLsb' 0 16) y from rfl, encodeTuple, wrapperResult_add,
      wrapperResult_add, extract_low16_setWidth]

/-- A fetch of a driven tuple reads its read bits (R24, R54). -/
theorem fetchTuple_eq_readBits {s : State} {t : Tuple} (h : DrivesTuple s t) : fetchTuple s = .ok t.readBits :=
  fetchTuple_of_drives h

/-- With the read bits driven, a step is the meaning of the decoded instruction (R24, R55). -/
theorem step_of_drives {s : State} {t : Tuple} (h : DrivesTuple s t) : step s = exec (decodeTuple t) s := by
  rw [step, fetchTuple_eq_readBits h]
  exact congrArg (exec · s) (decodeTuple_readBits t)

/-- A step that completes is the meaning of a driven tuple (R22). -/
theorem exists_drives_of_step {s s' : State} (h : step s = .next s') :
    ∃ t, DrivesTuple s t ∧ exec (decodeTuple t) s = .next s' := by
  obtain ⟨t, hfetch, hexec⟩ := (step_eq_next_iff s s').1 h
  exact ⟨t, drivesTuple_of_fetch hfetch, hexec⟩

/-- After a step, r is the function of the tuple that was driven (R22, R24). -/
theorem step_r_of_drives {s s' : State} {t : Tuple} (ht : DrivesTuple s t) (h : step s = .next s') :
    s'.r = wrapperResult t := by
  rw [step_of_drives ht] at h
  rw [exec_r h, wrapperResult_encodeTuple_decodeTuple]

theorem step_keeps_inputs {s s' : State} (h : step s = .next s') :
    s'.arch = s.arch ∧ s'.op = s.op ∧ s'.x = s.x ∧ s'.y = s.y := by
  obtain ⟨t, -, hexec⟩ := exists_drives_of_step h
  exact exec_keeps_inputs hexec

/-- The tuple that is driven stands on the input ports alone. -/
theorem drivesTuple_congr {s s' : State} (hop : s'.op = s.op) (hx : s'.x = s.x) (hy : s'.y = s.y) (t : Tuple) :
    DrivesTuple s' t ↔ DrivesTuple s t := by
  rw [DrivesTuple, DrivesTuple, hop, hx, hy]

theorem drivesTuple_step_iff {s s' : State} (h : step s = .next s') (t : Tuple) :
    DrivesTuple s' t ↔ DrivesTuple s t := by
  obtain ⟨-, hop, hx, hy⟩ := step_keeps_inputs h
  exact drivesTuple_congr hop hx hy t

/-- A completed step, repeated on the inputs it left, changes nothing (R33). -/
theorem step_idempotent {s s' : State} (h : step s = .next s') : step s' = .next s' := by
  obtain ⟨t, ht, hexec⟩ := exists_drives_of_step h
  rw [step_of_drives ((drivesTuple_step_iff h t).2 ht)]
  exact exec_idempotent hexec

theorem run_succ_of_step {s s' : State} (h : step s = .next s') (k : Nat) :
    Host.Core.run core (k + 1) s = Host.Core.run core k s' := by
  have hcore : core.step s = .next s' := h
  simp only [Host.Core.run, hcore]

/-- Any number of steps stays at a state that its step gives back. -/
theorem run_of_fixed {s : State} (h : step s = .next s) : ∀ k, Host.Core.run core k s = .next s := by
  intro k
  induction k with
  | zero => rfl
  | succ k ih => rw [run_succ_of_step h, ih]

/-! ### Refusals -/

theorem read_of_undriven {n : Nat} (p : InputPort) {mask v d : BitVec n} (h : d &&& mask ≠ mask) :
    (Input.host v d).read p mask = .error (.undrivenInput p) :=
  if_neg h

theorem read_of_loop {n : Nat} (p : InputPort) {mask : BitVec n} (h : mask ≠ 0) :
    (Input.ownOutput : Input n).read p mask = .error (.combinationalLoop p) :=
  if_neg h

theorem readMaskX_ne_zero (o : BitVec 2) : readMaskX o ≠ 0 := by
  revert o; decide

/-- op is read first (log 6). -/
theorem step_of_read_op_error {s : State} {e : Refusal} (h : s.op.read .op (BitVec.allOnes 2) = .error e) :
    step s = .refused e := by
  rw [step_eq_refused_iff, fetchTuple, h]

/-- With op driven, the operand ports decide (log 6). -/
theorem fetchTuple_of_drives_op {s : State} {o : BitVec 2} (ho : Drives s.op (BitVec.allOnes 2) o) :
    fetchTuple s = fetchOperands s o := by
  have hread := read_of_drives .op ho
  rw [BitVec.and_allOnes] at hread
  rw [fetchTuple, hread]

theorem step_of_read_x_error {s : State} {o : BitVec 2} {e : Refusal} (ho : Drives s.op (BitVec.allOnes 2) o)
    (h : s.x.read .x (readMaskX o) = .error e) : step s = .refused e := by
  rw [step_eq_refused_iff, fetchTuple_of_drives_op ho, fetchOperands, h]

theorem step_of_read_y_error {s : State} {o : BitVec 2} {x : BitVec 64} {e : Refusal}
    (ho : Drives s.op (BitVec.allOnes 2) o) (hx : Drives s.x (readMaskX o) x)
    (h : s.y.read .y (readMaskY o) = .error e) : step s = .refused e := by
  rw [step_eq_refused_iff, fetchTuple_of_drives_op ho, fetchOperands, read_of_drives .x hx, h]

/-- A step that does not complete is refused, since nothing faults (R110, R126). -/
theorem step_refused_of_not_next {s : State} (h : ¬ ∃ s', step s = .next s') : ∃ e, step s = .refused e := by
  cases hstep : step s with
  | next s' => exact absurd ⟨s', hstep⟩ h
  | fault r => cases r
  | refused e => exact ⟨e, rfl⟩

/-- A step completes exactly on a driven tuple (R24, R126, R133). -/
theorem step_completes_iff (s : State) : (∃ s', step s = .next s') ↔ ∃ t, DrivesTuple s t := by
  constructor
  · rintro ⟨s', h⟩
    obtain ⟨t, ht, -⟩ := exists_drives_of_step h
    exact ⟨t, ht⟩
  · rintro ⟨t, ht⟩
    rw [step_of_drives ht]
    exact exec_completes _ s

/-! ### Several cores -/

/-- One core of a vector completes exactly when its own step does, and no other core changes (R25). -/
theorem stepInstance_eq_next_iff {n : Nat} (k : Fin n) (cores cores' : Vector State n) :
    stepInstance k cores = .next cores' ↔ ∃ s, step cores[k] = .next s ∧ cores' = cores.set k s := by
  unfold stepInstance
  cases h : step cores[k] with
  | next s => simp [eq_comm]
  | fault r => cases r
  | refused e => simp

/-! ### The obligations -/

/-- Settles O15: the selected unit is set to the function of its inputs, the others keep theirs. -/
theorem stepKeepsOutputsSettled : Obligations.StepKeepsOutputsSettled := by
  intro s s' hs h
  obtain ⟨t, -, hexec⟩ := exists_drives_of_step h
  exact ⟨exec_keeps_settled hs hexec, fun t ht => step_r_of_drives ((drivesTuple_step_iff h t).1 ht) h⟩

/-- Settles O5: the fetch reads the driven bits, and the ignored ones do not change what is decoded. -/
theorem stepRunsDecodedInstruction : Obligations.StepRunsDecodedInstruction := fun _ _ => step_of_drives

/-- Settles O6: placing a word drives its tuple. -/
theorem stepAfterPlacingWord : Obligations.StepAfterPlacingWord := by
  intro s nbits w i h
  obtain ⟨-, rfl⟩ := (decodeWord_eq_ok_iff _ i).1 ((decodeTableWord_eq_some_iff nbits w i).1 h)
  exact step_of_drives (drivesTuple_drive s _)

/-- Settles O7: a fetch succeeds exactly on a driven tuple, and there is no fault. -/
theorem stepCompletesExactlyOnDrivenInputs : Obligations.StepCompletesExactlyOnDrivenInputs := fun s =>
  ⟨step_completes_iff s, fun h => step_refused_of_not_next (mt (step_completes_iff s).1 h)⟩

/-- Settles O8: the first port in the order op, x, y whose read fails names the refusal. -/
theorem undrivenInputIsRefused : Obligations.UndrivenInputIsRefused := by
  refine fun s => ⟨fun v d hop hd => ?_, fun o v d ho hx hd => ?_, fun o x v d ho hx hy hd => ?_⟩
  · rw [← BitVec.and_allOnes (x := d)] at hd
    exact step_of_read_op_error (hop ▸ read_of_undriven .op hd)
  · exact step_of_read_x_error ho (hx ▸ read_of_undriven .x hd)
  · exact step_of_read_y_error ho hx (hy ▸ read_of_undriven .y hd)

/-- Settles O9: op and x are always read, y by MUL and ADD alone; a wired y that is not read counts as driven. -/
theorem ownOutputLoopIsRefused : Obligations.OwnOutputLoopIsRefused := by
  refine fun s => ⟨fun hop => ?_, fun o ho hx => ?_, fun o x ho hx hy harith => ?_, fun o x ho hx _ hconv => ?_⟩
  · exact step_of_read_op_error (hop ▸ read_of_loop .op (by decide))
  · exact step_of_read_x_error ho (hx ▸ read_of_loop .x (readMaskX_ne_zero o))
  · have hmask : readMaskY o ≠ 0 := by rcases harith with rfl | rfl <;> decide
    exact step_of_read_y_error ho hx (hy ▸ read_of_loop .y hmask)
  · have hmask : readMaskY o = 0 := by rcases hconv with rfl | rfl <;> rfl
    exact (step_completes_iff s).2 ⟨{ op := o, x := x, y := 0 }, ho, hx, .inl hmask⟩

/-- Settles O10: each operation delivers a result. -/
theorem everyInvocationCompletes : Obligations.EveryInvocationCompletes := exec_completes

/-- Settles O11: only the selected unit's ports and r are written, and a 16-bit result is zero-extended. -/
theorem invocationFrame : Obligations.InvocationFrame := by
  intro i s s' h
  obtain ⟨he, hd, hm, ha⟩ := exec_keeps_other_units h
  refine ⟨exec_keeps_inputs h, he, hd, hm, ha, fun ho => ?_⟩
  rcases exec_cases i s with ⟨_, rfl, h'⟩ | ⟨_, rfl, h'⟩ | ⟨_, _, rfl, h'⟩ | ⟨_, _, rfl, h'⟩ <;>
    cases h'.symm.trans h
  · exact extract_high48_setWidth _
  · exact absurd rfl ho
  · exact extract_high48_setWidth _
  · exact extract_high48_setWidth _

/-- Settles O12: the inputs stand as they were, so every further step gives the same state. -/
theorem invocationIsIdempotent : Obligations.InvocationIsIdempotent := by
  intro s s' h
  obtain ⟨t, ht, hexec⟩ := exists_drives_of_step h
  obtain ⟨-, hin⟩ := step_keeps_inputs h
  refine ⟨hin, ⟨t, ht, ?_⟩, fun k => ?_⟩
  · have hunits := exec_keeps_other_units hexec
    rwa [opBits_decodeTuple] at hunits
  · rw [run_succ_of_step h]
    exact run_of_fixed (step_idempotent h) k

/-- Settles O13: tuples with equal read bits decode to the same instruction, whose output is the same in every
state. -/
theorem resultDependsOnReadBitsOnly : Obligations.ResultDependsOnReadBitsOnly := by
  intro s₁ s₂ s₁' s₂' t₁ t₂ h₁ h₂ hop hx hy hstep₁ hstep₂
  have hread : t₁.readBits = t₂.readBits := by
    rw [Tuple.readBits, Tuple.readBits, hx, hy, hop]
  have hdecode : decodeTuple t₁ = decodeTuple t₂ := by
    rw [← decodeTuple_readBits, hread, decodeTuple_readBits]
  rw [step_of_drives h₁] at hstep₁
  rw [step_of_drives h₂] at hstep₂
  rw [exec_r hstep₁, exec_r hstep₂, hdecode]

/-- Settles O14: each of the two updates reads and writes its own place of the vector. -/
theorem instancesAreIndependent : Obligations.InstancesAreIndependent := by
  intro n j k cores cores₁ cores₂ hjk hj hk
  obtain ⟨sj, hsj, rfl⟩ := (stepInstance_eq_next_iff j cores cores₁).1 hj
  obtain ⟨sk, hsk, rfl⟩ := (stepInstance_eq_next_iff k _ cores₂).1 hk
  have hne : (j : Nat) ≠ k := fun h => hjk (Fin.ext h)
  simp only [Fin.getElem_fin] at hsj hsk ⊢
  rw [Vector.getElem_set_ne _ _ hne] at hsk
  have hrj : (((cores.set j sj).set k sk)[(j : Nat)]) = sj := by
    rw [Vector.getElem_set_ne _ _ hne.symm, Vector.getElem_set_self]
  have hrk : (((cores.set j sj).set k sk)[(k : Nat)]) = sk := Vector.getElem_set_self _
  rw [hrj, hrk]
  refine ⟨hsj, hsk, fun t ht => step_r_of_drives ht hsj, fun t ht => step_r_of_drives ht hsk,
    fun i hij hik => ?_, cores.set k sk, (stepInstance_eq_next_iff k _ _).2 ⟨sk, hsk, rfl⟩,
    (stepInstance_eq_next_iff j _ _).2 ⟨sj, ?_, ?_⟩⟩
  · rw [Vector.getElem_set_ne _ _ fun h => hik (Fin.ext h.symm),
      Vector.getElem_set_ne _ _ fun h => hij (Fin.ext h.symm)]
  · rw [Fin.getElem_fin, Vector.getElem_set_ne _ _ hne.symm, hsj]
  · exact Vector.set_comm _ _ hne

/-- Settles O16: the four units and the wrapper evaluated on the inputs that are driven to 0. -/
theorem resetIsSettled : Obligations.ResetIsSettled :=
  ⟨⟨by decide, by decide, by decide, by decide⟩, ⟨drives_full _ _, drives_full _ _, drives_full _ _⟩,
    by decide, rfl, rfl, rfl, rfl, rfl⟩

end Sys2Proof.Machine
end

section
/-! PROOFS. The grid of representable magnitudes. In both formats the exponent and fraction fields, read as one number
`n`, count the magnitudes upwards from 0, denormals and normals alike (R43, R45, R47). What a pattern is worth, the
order of the patterns and truncation toward zero are all statements about that count. -/

namespace Sys2Proof.Machine

/-! ### The grid of a format with `p` fraction bits -/

/-- The magnitude of exponent field `e` and fraction field `f`, in units of the smallest denormal (R43, R47). -/
def fieldUnits (p e f : ℕ) : ℕ := (if e = 0 then f else 2 ^ p + f) * 2 ^ (e - 1)

/-- The magnitude number `n`, counted from 0, in units of the smallest denormal. -/
def gridUnits (p n : ℕ) : ℕ := fieldUnits p (n / 2 ^ p) (n % 2 ^ p)

theorem fields_div {p e f : ℕ} (hf : f < 2 ^ p) : (e * 2 ^ p + f) / 2 ^ p = e := by
  rw [Nat.mul_comm, Nat.mul_add_div (by positivity), Nat.div_eq_of_lt hf, Nat.add_zero]

theorem gridUnits_of_fields {p e f : ℕ} (hf : f < 2 ^ p) : gridUnits p (e * 2 ^ p + f) = fieldUnits p e f := by
  have hmod : (e * 2 ^ p + f) % 2 ^ p = f := by rw [Nat.mul_add_mod_self_right, Nat.mod_eq_of_lt hf]
  rw [gridUnits, fields_div hf, hmod]

/-- Up to the first normal the count is the magnitude. -/
theorem gridUnits_of_le {p n : ℕ} (hn : n ≤ 2 ^ p) : gridUnits p n = n := by
  rcases hn.lt_or_eq with hlt | rfl
  · simp [gridUnits, fieldUnits, Nat.div_eq_of_lt hlt, Nat.mod_eq_of_lt hlt]
  · simp [gridUnits, fieldUnits]

@[simp] theorem gridUnits_zero (p : ℕ) : gridUnits p 0 = 0 := gridUnits_of_le (Nat.zero_le _)

/-- The distance to the next magnitude doubles from each exponent to the next. -/
theorem gridUnits_succ (p n : ℕ) : gridUnits p (n + 1) = gridUnits p n + 2 ^ (n / 2 ^ p - 1) := by
  obtain ⟨e, f, hf, rfl⟩ : ∃ e f, f < 2 ^ p ∧ n = e * 2 ^ p + f :=
    ⟨n / 2 ^ p, n % 2 ^ p, Nat.mod_lt _ (by positivity), (Nat.div_add_mod' n (2 ^ p)).symm⟩
  rw [gridUnits_of_fields hf, fields_div hf]
  rcases Nat.lt_or_ge (f + 1) (2 ^ p) with hlast | hlast
  · rw [Nat.add_assoc, gridUnits_of_fields hlast, fieldUnits, fieldUnits]
    split <;> ring
  · have hf1 : f + 1 = 2 ^ p := by omega
    have hcarry : e * 2 ^ p + f + 1 = (e + 1) * 2 ^ p + 0 := by rw [Nat.add_assoc, hf1]; ring
    rw [hcarry, gridUnits_of_fields (by positivity), fieldUnits, fieldUnits, if_neg (Nat.succ_ne_zero e)]
    cases e with
    | zero => simpa using hf1.symm
    | succ e =>
      rw [if_neg (Nat.succ_ne_zero e), ← hf1, Nat.add_sub_cancel, Nat.add_sub_cancel, pow_succ]
      ring

/-- The magnitude after that of `e` and `f` has one unit of the fraction more, also where it carries. -/
theorem gridUnits_fields_succ {p e f : ℕ} (hf : f < 2 ^ p) :
    gridUnits p (e * 2 ^ p + f + 1) = fieldUnits p e (f + 1) := by
  rw [gridUnits_succ, gridUnits_of_fields hf, fields_div hf, fieldUnits, fieldUnits]
  split <;> ring

theorem gridUnits_strictMono (p : ℕ) : StrictMono (gridUnits p) :=
  strictMono_nat_of_lt_succ fun n => by
    rw [gridUnits_succ]; exact Nat.lt_add_of_pos_right (by positivity)

/-- From the first normal on, a magnitude is at least its exponent's power of two. -/
theorem pow_le_gridUnits {p n : ℕ} (hn : 2 ^ p ≤ n) : 2 ^ p * 2 ^ (n / 2 ^ p - 1) ≤ gridUnits p n := by
  have he : n / 2 ^ p ≠ 0 := (Nat.div_pos hn (by positivity)).ne'
  rw [gridUnits, fieldUnits, if_neg he]
  exact Nat.mul_le_mul_right _ (Nat.le_add_right _ _)

/-- A normal magnitude is its grid count in units of the smallest denormal; `b` is the bias (R43, R47). -/
theorem fieldUnits_normal {p e : ℕ} (he : e ≠ 0) (f : ℕ) (b : ℤ) :
    (fieldUnits p e f : ℚ) * 2 ^ (1 - b - p) = (1 + f / 2 ^ p) * 2 ^ ((e : ℤ) - b) := by
  obtain ⟨k, rfl⟩ := Nat.exists_eq_succ_of_ne_zero he
  have hexp : ((k.succ : ℕ) : ℤ) - b = k + (1 - b - p) + p := by push_cast; ring
  rw [fieldUnits, if_neg he, Nat.succ_sub_one, hexp, zpow_add₀ two_ne_zero, zpow_add₀ two_ne_zero, zpow_natCast,
    zpow_natCast]
  push_cast
  field_simp

/-! ### SBFP patterns on their grid -/

/-- The pattern without its sign bit: the exponent and fraction fields as one number. -/
def sbfpMag (h : Sbfp) : ℕ := h.toNat % 2 ^ 15

theorem sbfpMag_eq_fields (h : Sbfp) : sbfpMag h = (sbfpExp h).toNat * 2 ^ 10 + (sbfpFrac h).toNat := by
  rw [sbfpMag, sbfpExp, sbfpFrac, extract_toNat, extract_toNat]
  omega

theorem toNat_eq_sign_mag (h : Sbfp) : h.toNat = (sbfpSign h).toNat * 2 ^ 15 + sbfpMag h := by
  rw [sbfpSign, sbfpMag, extract_toNat]
  have := h.isLt
  omega

theorem eq_of_sign_of_mag {a b : Sbfp} (hs : sbfpSign a = sbfpSign b) (hm : sbfpMag a = sbfpMag b) : a = b :=
  BitVec.eq_of_toNat_eq (by rw [toNat_eq_sign_mag a, toNat_eq_sign_mag b, hs, hm])

theorem sbfpMag_pack (s : BitVec 1) (e : BitVec 5) (f : BitVec 10) :
    sbfpMag (pack s e f) = e.toNat * 2 ^ 10 + f.toNat := by
  rw [sbfpMag_eq_fields, sbfpExp_pack, sbfpFrac_pack]

theorem sbfpExp_eq_iff (h : Sbfp) (e : BitVec 5) : sbfpExp h = e ↔ sbfpMag h / 2 ^ 10 = e.toNat := by
  have := (sbfpFrac h).isLt
  rw [sbfpMag_eq_fields, ← BitVec.toNat_inj]
  omega

theorem sbfpFrac_eq_zero_iff (h : Sbfp) : sbfpFrac h = 0 ↔ sbfpMag h % 2 ^ 10 = 0 := by
  have := (sbfpFrac h).isLt
  rw [sbfpMag_eq_fields, ← BitVec.toNat_inj, show (0 : BitVec 10).toNat = 0 from rfl]
  omega

theorem sbfpMag_lt (h : Sbfp) : sbfpMag h < 0x8000 := Nat.mod_lt _ (by norm_num)

theorem classOf_eq_finite_iff_mag (h : Sbfp) : classOf h = .finite ↔ sbfpMag h < 0x7C00 := by
  have := sbfpMag_lt h
  rw [classOf_eq_finite_iff, ne_eq, sbfpExp_eq_iff, show (31 : BitVec 5).toNat = 31 from rfl]
  omega

theorem classOf_eq_nan_iff_mag (h : Sbfp) : classOf h = .nan ↔ 0x7C00 < sbfpMag h := by
  have := sbfpMag_lt h
  rw [classOf_eq_nan_iff, ne_eq, sbfpExp_eq_iff, sbfpFrac_eq_zero_iff, show (31 : BitVec 5).toNat = 31 from rfl]
  omega

theorem classOf_isInf_iff_mag (h : Sbfp) : (classOf h).isInf = true ↔ sbfpMag h = 0x7C00 := by
  have := sbfpMag_lt h
  rw [classOf_isInf_iff, sbfpExp_eq_iff, sbfpFrac_eq_zero_iff, show (31 : BitVec 5).toNat = 31 from rfl]
  omega

theorem isZero_iff_mag (h : Sbfp) : isZero h = true ↔ sbfpMag h = 0 := by
  rw [isZero_iff, sbfpExp_eq_iff, sbfpFrac_eq_zero_iff, show (0 : BitVec 5).toNat = 0 from rfl]
  omega

theorem sbfpKind_eq (h : Sbfp) :
    sbfpKind h = if sbfpMag h = 0x7C00 then .infinity else if 0x7C00 < sbfpMag h then .nan
      else if 0x0400 ≤ sbfpMag h then .normalized else if 0 < sbfpMag h then .denormalized else .zero := by
  have := sbfpMag_lt h
  simp only [sbfpKind, reservedExponent, sbfpExp_eq_iff, sbfpFrac_eq_zero_iff,
    show (31 : BitVec 5).toNat = 31 from rfl, show (0 : BitVec 5).toNat = 0 from rfl]
  grind

/-- A pattern is worth its magnitude number's units of 2^-24, with its sign (R43, R45). -/
theorem real_eq_gridUnits (h : Sbfp) :
    real h = (-1) ^ (sbfpSign h).toNat * ((gridUnits 10 (sbfpMag h) : ℚ) * 2 ^ (-24 : ℤ)) := by
  have hgrid : gridUnits 10 (sbfpMag h) = fieldUnits 10 (sbfpExp h).toNat (sbfpFrac h).toNat := by
    rw [sbfpMag_eq_fields, gridUnits_of_fields (sbfpFrac h).isLt]
  have hexp0 : sbfpExp h = 0 ↔ (sbfpExp h).toNat = 0 := by rw [← BitVec.toNat_inj]; rfl
  rw [hgrid, real]
  split
  case isTrue h0 =>
    rw [hexp0.1 h0, fieldUnits, if_pos rfl]
    norm_num
    ring
  case isFalse h0 =>
    have hnormal := fieldUnits_normal (p := 10) (mt hexp0.2 h0) (sbfpFrac h).toNat 15
    rw [mul_assoc, ← hnormal]
    norm_num

theorem abs_real (h : Sbfp) : |real h| = (gridUnits 10 (sbfpMag h) : ℚ) * 2 ^ (-24 : ℤ) := by
  rw [real_eq_gridUnits, abs_mul, abs_neg_one_pow, one_mul, abs_of_nonneg (by positivity)]

theorem real_of_sign_zero {h : Sbfp} (hs : sbfpSign h = 0) : real h = |real h| := by
  rw [abs_real, real_eq_gridUnits, hs]; simp

theorem real_of_sign_one {h : Sbfp} (hs : sbfpSign h = 1) : real h = -|real h| := by
  rw [abs_real, real_eq_gridUnits, hs]; simp

/-- Magnitudes are ordered as their numbers (R45). -/
theorem abs_real_lt_iff (a b : Sbfp) : |real a| < |real b| ↔ sbfpMag a < sbfpMag b := by
  rw [abs_real, abs_real, mul_lt_mul_iff_left₀ (by positivity), Nat.cast_lt, (gridUnits_strictMono 10).lt_iff_lt]

theorem abs_real_le_iff (a b : Sbfp) : |real a| ≤ |real b| ↔ sbfpMag a ≤ sbfpMag b := by
  rw [← not_lt, abs_real_lt_iff, not_lt]

theorem abs_real_eq_iff (a b : Sbfp) : |real a| = |real b| ↔ sbfpMag a = sbfpMag b := by
  rw [le_antisymm_iff, abs_real_le_iff, abs_real_le_iff, le_antisymm_iff]

theorem real_eq_zero_iff (h : Sbfp) : real h = 0 ↔ sbfpMag h = 0 := by
  have hzero : |real 0| = 0 := by rw [abs_real, show sbfpMag 0 = 0 from rfl, gridUnits_zero, Nat.cast_zero, zero_mul]
  rw [← abs_eq_zero, ← hzero, abs_real_eq_iff, show sbfpMag 0 = 0 from rfl]

theorem real_neg_iff (h : Sbfp) : real h < 0 ↔ sbfpSign h = 1 ∧ sbfpMag h ≠ 0 := by
  rcases BitVec1_cases (sbfpSign h) with hs | hs
  · rw [real_of_sign_zero hs, hs]
    exact iff_of_false (abs_nonneg _).not_gt fun hc => absurd hc.1 (by decide)
  · rw [real_of_sign_one hs, neg_lt_zero, abs_pos, ne_eq, real_eq_zero_iff, hs]
    exact (and_iff_right rfl).symm

/-- The sign bit of a nonzero value is recorded as R61 records a sign. -/
theorem sbfpSign_of_mag_ne_zero {h : Sbfp} (hz : sbfpMag h ≠ 0) : sbfpSign h = if real h < 0 then 1 else 0 := by
  rcases BitVec1_cases (sbfpSign h) with hs | hs <;> simp [real_neg_iff, hs, hz]

/-- The largest finite magnitude is 65504 (R45). -/
theorem abs_real_le_of_finite {h : Sbfp} (hf : classOf h = .finite) : |real h| ≤ 65504 := by
  have hmax : |real 0x7BFF| = 65504 := by decide +kernel
  have hmag : sbfpMag 0x7BFF = 0x7BFF := rfl
  have hlt := (classOf_eq_finite_iff_mag h).1 hf
  rw [← hmax, abs_real_le_iff, hmag]
  omega

/-! ### The obligations -/

/-- Settles O17: both sides are ranges of the magnitude number, with either sign. -/
theorem kindsArePatternRanges : Obligations.KindsArePatternRanges := by
  intro h
  have hmag : sbfpMag h = h.toNat % 32768 := rfl
  have hlt := h.isLt
  simp only [sbfpKind_eq, BitVec.le_def, ← BitVec.toNat_inj, hmag]
  refine ⟨?_, ?_, ?_, ?_, ?_⟩ <;> split_ifs <;> simp <;> omega

/-- Settles O18: values are signed grid counts, and the grid rises strictly. -/
theorem finiteValuesAreOrdered : Obligations.FiniteValuesAreOrdered := by
  refine ⟨fun h hf => ⟨⟨(-1) ^ (sbfpSign h).toNat * gridUnits 10 (sbfpMag h), ?_⟩, abs_real_le_of_finite hf⟩,
    fun a b _ _ ha hb => ?_, fun a b _ _ ha hb => ?_, fun a b _ _ hab => ?_⟩
  · rw [real_eq_gridUnits]; push_cast; ring
  · rw [BitVec.lt_def, toNat_eq_sign_mag a, toNat_eq_sign_mag b, ha, hb, real_of_sign_zero ha, real_of_sign_zero hb,
      abs_real_lt_iff, Nat.add_lt_add_iff_left]
  · rw [BitVec.lt_def, toNat_eq_sign_mag a, toNat_eq_sign_mag b, ha, hb, real_of_sign_one ha, real_of_sign_one hb,
      neg_lt_neg_iff, abs_real_lt_iff, Nat.add_lt_add_iff_left]
  · have hmag : sbfpMag a = sbfpMag b := (abs_real_eq_iff a b).1 (by rw [hab])
    by_cases hz : sbfpMag a = 0
    · exact .inr ⟨(isZero_iff_mag a).2 hz, (isZero_iff_mag b).2 (hmag ▸ hz)⟩
    · refine .inl (eq_of_sign_of_mag ?_ hmag)
      rw [sbfpSign_of_mag_ne_zero hz, sbfpSign_of_mag_ne_zero (hmag ▸ hz), hab]

end Sys2Proof.Machine
end

section
/-! PROOFS. Re-encoding on the grid (R61 to R69): encodeQ records the sign and takes the last grid magnitude that is not
above its argument, on the denormal and the normalized path alike. Every statement about truncation follows from these
bounds, and they determine the result. -/

namespace Sys2Proof.Machine

/-! ### Sign and magnitude of encodeQ -/

/-- The sign bit is 1 exactly for a negative number (R61). -/
theorem sbfpSign_encodeQ (v : ℚ) : sbfpSign (encodeQ v) = if v < 0 then 1 else 0 := by
  unfold encodeQ
  split_ifs <;> rw [sbfpSign_pack]

theorem sbfpMag_encodeQ_of_overflow {v : ℚ} (h : 2 ^ 16 ≤ |v|) : sbfpMag (encodeQ v) = 0x7C00 := by
  rw [encodeQ_of_overflow h, sbfpMag_pack]; rfl

/-- The magnitude bits depend on the magnitude alone (R61). -/
theorem sbfpMag_encodeQ_congr {v w : ℚ} (h : |v| = |w|) : sbfpMag (encodeQ v) = sbfpMag (encodeQ w) := by
  unfold encodeQ
  rw [h]
  split_ifs <;> simp only [sbfpMag_pack]

/-- The magnitude is the last one on the grid that is not above `q`, and a finite one. -/
def TruncatesTo (q : ℚ) (n : ℕ) : Prop :=
  n < 0x7C00 ∧ (gridUnits 10 n : ℚ) * 2 ^ (-24 : ℤ) ≤ q ∧ q < (gridUnits 10 (n + 1) : ℚ) * 2 ^ (-24 : ℤ)

/-- In the denormal range truncation is the integer part in units of 2^-24 (R64). -/
theorem truncatesTo_of_denormal {r : ℚ} {n : ℕ} (hn : n < 2 ^ 10) (hle : n ≤ r) (hlt : r < n + 1) :
    TruncatesTo (r * 2 ^ (-24 : ℤ)) n := by
  refine ⟨hn.trans (by norm_num), ?_, ?_⟩
  · rw [gridUnits_of_le hn.le]; gcongr
  · rw [gridUnits_of_le hn]; push_cast; gcongr

/-- In the range of exponent field `k` truncation is the integer part of the remainder in units of 2^-10 (R66). -/
theorem truncatesTo_of_normal {r : ℚ} {k f : ℕ} (hk0 : k ≠ 0) (hk : k < 31) (hf : f < 2 ^ 10) (hle : f ≤ r)
    (hlt : r < f + 1) : TruncatesTo ((1 + r / 2 ^ 10) * 2 ^ ((k : ℤ) - 15)) (k * 2 ^ 10 + f) := by
  have hunits (g : ℕ) : (fieldUnits 10 k g : ℚ) * 2 ^ (-24 : ℤ) = (1 + g / 2 ^ 10) * 2 ^ ((k : ℤ) - 15) := by
    rw [← fieldUnits_normal hk0]; norm_num
  refine ⟨by omega, ?_, ?_⟩
  · rw [gridUnits_of_fields hf, hunits]; gcongr
  · rw [gridUnits_fields_succ hf, hunits]; push_cast; gcongr

theorem encodeQ_truncates_of_denormal {v : ℚ} (h : |v| < 2 ^ (-14 : ℤ)) : TruncatesTo |v| (sbfpMag (encodeQ v)) := by
  have hfloor : ⌊|v| * 2 ^ 24⌋₊ < 2 ^ 10 := by
    rw [Nat.floor_lt (by positivity), ← lt_div_iff₀ (by positivity)]
    exact h.trans_eq (by norm_num)
  have hmag : sbfpMag (encodeQ v) = ⌊|v| * 2 ^ 24⌋₊ := by
    rw [encodeQ_of_denormal h, sbfpMag_pack, BitVec.toNat_ofNat, Nat.mod_eq_of_lt hfloor]
    simp
  have hv : |v| = |v| * 2 ^ 24 * 2 ^ (-24 : ℤ) := by rw [mul_assoc]; norm_num
  rw [hmag]
  conv => arg 1; rw [hv]
  exact truncatesTo_of_denormal hfloor (Nat.floor_le (by positivity)) (Nat.lt_floor_add_one _)

theorem encodeQ_truncates_of_normal {v : ℚ} (hlo : 2 ^ (-14 : ℤ) ≤ |v|) (hhi : |v| < 2 ^ 16) :
    TruncatesTo |v| (sbfpMag (encodeQ v)) := by
  obtain ⟨hE, hE'⟩ := log_range_of_normal hlo hhi
  obtain ⟨k, hk⟩ := Int.eq_ofNat_of_zero_le (show 0 ≤ Int.log 2 |v| + 15 by omega)
  have hlog : Int.log 2 |v| = (k : ℤ) - 15 := by omega
  have hpow : (0 : ℚ) < 2 ^ Int.log 2 |v| := by positivity
  have hge : 1 ≤ |v| / 2 ^ Int.log 2 |v| :=
    (one_le_div hpow).2 (Int.zpow_log_le_self one_lt_two (lt_of_lt_of_le (by positivity) hlo))
  have hlt : |v| / 2 ^ Int.log 2 |v| < 2 := by
    have hsucc := Int.lt_zpow_succ_log_self (R := ℚ) one_lt_two |v|
    rw [zpow_add_one₀ (by norm_num)] at hsucc
    exact (div_lt_iff₀' hpow).2 (by exact_mod_cast hsucc)
  have hr : 0 ≤ (|v| / 2 ^ Int.log 2 |v| - 1) * 2 ^ 10 := by linarith
  have hfloor : ⌊(|v| / 2 ^ Int.log 2 |v| - 1) * 2 ^ 10⌋₊ < 2 ^ 10 := by
    rw [Nat.floor_lt hr]; push_cast; linarith
  have hmag : sbfpMag (encodeQ v) = k * 2 ^ 10 + ⌊(|v| / 2 ^ Int.log 2 |v| - 1) * 2 ^ 10⌋₊ := by
    rw [encodeQ_of_normal hlo hhi, sbfpMag_pack, hk, BitVec.toNat_ofNat, Nat.mod_eq_of_lt hfloor, BitVec.toNat_ofInt]
    omega
  have hv : |v| = (1 + (|v| / 2 ^ Int.log 2 |v| - 1) * 2 ^ 10 / 2 ^ 10) * 2 ^ ((k : ℤ) - 15) := by
    rw [← hlog]; field_simp; ring
  rw [hmag]
  conv => arg 1; rw [hv]
  exact truncatesTo_of_normal (by omega) (by omega) hfloor (Nat.floor_le hr) (Nat.lt_floor_add_one _)

/-- Below the overflow threshold encodeQ truncates toward zero, on both paths (R64, R66, R72). -/
theorem encodeQ_truncates {v : ℚ} (h : |v| < 2 ^ 16) : TruncatesTo |v| (sbfpMag (encodeQ v)) := by
  rcases lt_or_ge |v| (2 ^ (-14 : ℤ)) with hd | hn
  · exact encodeQ_truncates_of_denormal hd
  · exact encodeQ_truncates_of_normal hn h

/-! ### What truncation determines -/

/-- A grid magnitude that is not above `q` is not above what `q` truncates to. -/
theorem TruncatesTo.le_of_gridUnits_le {q : ℚ} {m n : ℕ} (h : TruncatesTo q n)
    (hm : (gridUnits 10 m : ℚ) * 2 ^ (-24 : ℤ) ≤ q) : m ≤ n := by
  obtain ⟨-, -, hlt⟩ := h
  have hcast := lt_of_mul_lt_mul_right (hm.trans_lt hlt) (by positivity)
  exact Nat.lt_succ_iff.1 ((gridUnits_strictMono 10).lt_iff_lt.1 (by exact_mod_cast hcast))

theorem TruncatesTo.unique {q : ℚ} {m n : ℕ} (hm : TruncatesTo q m) (hn : TruncatesTo q n) : m = n :=
  le_antisymm (hn.le_of_gridUnits_le hm.2.1) (hm.le_of_gridUnits_le hn.2.1)

/-- What truncates to a finite magnitude is below the overflow threshold (R62). -/
theorem TruncatesTo.lt_overflow {q : ℚ} {n : ℕ} (h : TruncatesTo q n) : q < 2 ^ 16 := by
  obtain ⟨hfin, -, hlt⟩ := h
  have htop : gridUnits 10 0x7C00 = 2 ^ 40 := by decide
  have hle : (gridUnits 10 (n + 1) : ℚ) ≤ 2 ^ 40 := by
    exact_mod_cast htop ▸ (gridUnits_strictMono 10).monotone hfin
  calc q < gridUnits 10 (n + 1) * 2 ^ (-24 : ℤ) := hlt
    _ ≤ 2 ^ 40 * 2 ^ (-24 : ℤ) := by gcongr
    _ = 2 ^ 16 := by norm_num

/-- Sign and truncated magnitude determine the re-encoded pattern (R69). -/
theorem encodeQ_eq_of_truncatesTo {v : ℚ} {c : Sbfp} (hs : sbfpSign c = if v < 0 then 1 else 0)
    (hm : TruncatesTo |v| (sbfpMag c)) : encodeQ v = c :=
  eq_of_sign_of_mag ((sbfpSign_encodeQ v).trans hs.symm) ((encodeQ_truncates hm.lt_overflow).unique hm)

theorem truncatesTo_abs_real {h : Sbfp} (hf : classOf h = .finite) : TruncatesTo |real h| (sbfpMag h) := by
  refine ⟨(classOf_eq_finite_iff_mag h).1 hf, (abs_real h).ge, ?_⟩
  rw [abs_real]
  have := (gridUnits_strictMono 10) (Nat.lt_succ_self (sbfpMag h))
  gcongr

/-! ### encodeQ, as the statements use it -/

@[simp] theorem encodeQ_zero : encodeQ 0 = 0 := by
  rw [encodeQ_of_underflow (by norm_num), if_neg (lt_irrefl 0)]; rfl

/-- A representable value is re-encoded as its own pattern, but for -0 (R75). -/
theorem encodeQ_real {h : Sbfp} (hf : classOf h = .finite) : encodeQ (real h) = if h = 0x8000 then 0 else h := by
  by_cases hz : sbfpMag h = 0
  · have hcases : h = 0 ∨ h = 0x8000 := by
      rcases BitVec1_cases (sbfpSign h) with hs | hs
      · exact .inl (eq_of_sign_of_mag hs hz)
      · exact .inr (eq_of_sign_of_mag hs hz)
    rw [(real_eq_zero_iff h).2 hz, encodeQ_zero]
    rcases hcases with rfl | rfl <;> rfl
  · have hne : h ≠ 0x8000 := by rintro rfl; exact hz rfl
    rw [if_neg hne]
    exact encodeQ_eq_of_truncatesTo (sbfpSign_of_mag_ne_zero hz) (truncatesTo_abs_real hf)

/-- The result is never a NaN (R69). -/
theorem sbfpMag_encodeQ_le (v : ℚ) : sbfpMag (encodeQ v) ≤ 0x7C00 := by
  rcases lt_or_ge |v| (2 ^ 16) with h | h
  · exact (encodeQ_truncates h).1.le
  · exact (sbfpMag_encodeQ_of_overflow h).le

theorem classOf_encodeQ_ne_nan (v : ℚ) : classOf (encodeQ v) ≠ .nan := by
  rw [ne_eq, classOf_eq_nan_iff_mag, not_lt]; exact sbfpMag_encodeQ_le v

/-- The result is finite below the overflow threshold and an Infinity from it on (R62, R73). -/
theorem classOf_encodeQ_finite_iff (v : ℚ) : classOf (encodeQ v) = .finite ↔ |v| < 2 ^ 16 := by
  rw [classOf_eq_finite_iff_mag]
  refine ⟨fun h => ?_, fun h => (encodeQ_truncates h).1⟩
  by_contra hover
  rw [sbfpMag_encodeQ_of_overflow (not_lt.1 hover)] at h
  exact absurd h (by decide)

theorem classOf_encodeQ_isInf_iff (v : ℚ) : (classOf (encodeQ v)).isInf = true ↔ 2 ^ 16 ≤ |v| := by
  have hle := sbfpMag_encodeQ_le v
  rw [← not_lt, ← classOf_encodeQ_finite_iff, classOf_eq_finite_iff_mag, classOf_isInf_iff_mag]
  omega

/-- Truncation never gives a larger magnitude (R72). -/
theorem abs_real_encodeQ_le {v : ℚ} (h : |v| < 2 ^ 16) : |real (encodeQ v)| ≤ |v| := by
  rw [abs_real]; exact (encodeQ_truncates h).2.1

/-- No SBFP magnitude lies between the result and the argument (R72). -/
theorem abs_real_le_encodeQ {v : ℚ} (hv : |v| < 2 ^ 16) {h : Sbfp} (hle : |real h| ≤ |v|) :
    |real h| ≤ |real (encodeQ v)| := by
  rw [abs_real_le_iff]
  exact (encodeQ_truncates hv).le_of_gridUnits_le (abs_real h ▸ hle)

/-- What is truncated away is less than the distance to the next magnitude. -/
theorem abs_sub_abs_real_encodeQ_lt {v : ℚ} (hv : |v| < 2 ^ 16) :
    |v| - |real (encodeQ v)| < 2 ^ (sbfpMag (encodeQ v) / 2 ^ 10 - 1) * 2 ^ (-24 : ℤ) := by
  obtain ⟨-, -, hlt⟩ := encodeQ_truncates hv
  rw [gridUnits_succ] at hlt
  push_cast at hlt
  rw [abs_real]
  linarith

/-! ### The sign bit -/

theorem sbfpMag_eq_extract (h : Sbfp) : sbfpMag h = (h.extractLsb' 0 15).toNat := by
  rw [extract_toNat, pow_zero, Nat.div_one, sbfpMag]

@[simp] theorem sbfpMag_xor_sign (h : Sbfp) : sbfpMag (h ^^^ 0x8000) = sbfpMag h := by
  rw [sbfpMag_eq_extract, sbfpMag_eq_extract, BitVec.extractLsb'_xor,
    show (0x8000 : Sbfp).extractLsb' 0 15 = 0#15 from rfl, BitVec.xor_zero]

@[simp] theorem sbfpSign_xor_sign (h : Sbfp) : sbfpSign (h ^^^ 0x8000) = sbfpSign h ^^^ 1 := by
  rw [sbfpSign, BitVec.extractLsb'_xor, show (0x8000 : Sbfp).extractLsb' 15 1 = 1 from rfl]; rfl

/-- Negation flips the sign bit and no other (R75). -/
theorem encodeQ_neg {v : ℚ} (hv : v ≠ 0) : encodeQ (-v) = encodeQ v ^^^ 0x8000 := by
  refine eq_of_sign_of_mag ?_ ?_
  · rw [sbfpSign_xor_sign, sbfpSign_encodeQ, sbfpSign_encodeQ]
    rcases hv.lt_or_gt with hneg | hpos
    · rw [if_pos hneg, if_neg (by linarith)]; rfl
    · rw [if_neg hpos.not_gt, if_pos (by linarith)]; rfl
  · rw [sbfpMag_xor_sign, sbfpMag_encodeQ_congr (abs_neg v)]

end Sys2Proof.Machine
end

section
/-! PROOFS. Binary64 patterns on their grid, and DECODE (R76 to R85): the bit-level table is what the steps build, it is
exact, and the sign bit and the value of a finite binary64 determine the pattern. -/

namespace Sys2Proof.Machine

/-! ### Binary64 patterns on their grid -/

/-- The pattern without its sign bit: the exponent and fraction fields as one number. -/
def binary64Mag (d : Binary64) : ℕ := (binary64Exp d).toNat * 2 ^ 52 + (binary64Frac d).toNat

theorem binary64_eq_of_sign_of_mag {d e : Binary64} (hs : binary64Sign d = binary64Sign e)
    (hm : binary64Mag d = binary64Mag e) : d = e := by
  have hd := (binary64Frac d).isLt
  have he := (binary64Frac e).isLt
  have hexp : binary64Exp d = binary64Exp e := BitVec.eq_of_toNat_eq (by unfold binary64Mag at hm; omega)
  have hfrac : binary64Frac d = binary64Frac e := BitVec.eq_of_toNat_eq (by unfold binary64Mag at hm; omega)
  rw [← packBinary64_fields d, ← packBinary64_fields e, hs, hexp, hfrac]

theorem binary64Exp_eq_zero_iff (d : Binary64) : binary64Exp d = 0 ↔ (binary64Exp d).toNat = 0 := by
  rw [← BitVec.toNat_inj]; rfl

/-- A finite pattern is worth its magnitude number's units of 2^-1074, with its sign (R47). -/
theorem real64_eq_gridUnits (d : Binary64) :
    real64 d = (-1) ^ (binary64Sign d).toNat * ((gridUnits 52 (binary64Mag d) : ℚ) * 2 ^ (-1074 : ℤ)) := by
  rw [binary64Mag, gridUnits_of_fields (binary64Frac d).isLt, real64]
  split
  case isTrue h0 =>
    rw [(binary64Exp_eq_zero_iff d).1 h0, fieldUnits, if_pos rfl, mul_assoc, Nat.zero_sub, pow_zero, mul_one]
  case isFalse h0 =>
    have hnormal := fieldUnits_normal (p := 52) (mt (binary64Exp_eq_zero_iff d).2 h0) (binary64Frac d).toNat 1023
    rw [mul_assoc, ← hnormal]
    norm_num

theorem abs_real64 (d : Binary64) : |real64 d| = (gridUnits 52 (binary64Mag d) : ℚ) * 2 ^ (-1074 : ℤ) := by
  rw [real64_eq_gridUnits, abs_mul, abs_neg_one_pow, one_mul, abs_of_nonneg (by positivity)]

/-- On normal patterns the magnitude as R47 writes it. -/
theorem abs_real64_of_normal {d : Binary64} (h : (binary64Exp d).toNat ≠ 0) :
    |real64 d| = (1 + (binary64Frac d).toNat / 2 ^ 52) * 2 ^ (((binary64Exp d).toNat : ℤ) - 1023) := by
  rw [abs_real64, binary64Mag, gridUnits_of_fields (binary64Frac d).isLt, ← fieldUnits_normal h]
  norm_num

theorem abs_real64_eq_iff (d e : Binary64) : |real64 d| = |real64 e| ↔ binary64Mag d = binary64Mag e := by
  rw [abs_real64, abs_real64, mul_left_inj' (by positivity), Nat.cast_inj, (gridUnits_strictMono 52).injective.eq_iff]

theorem real64_eq_zero_iff (d : Binary64) : real64 d = 0 ↔ binary64Exp d = 0 ∧ binary64Frac d = 0 := by
  have hz : binary64Mag 0 = 0 := by decide
  have hzero : |real64 0| = 0 := by rw [abs_real64, hz, gridUnits_zero, Nat.cast_zero, zero_mul]
  rw [← abs_eq_zero, ← hzero, abs_real64_eq_iff, hz, ← BitVec.toNat_inj, ← BitVec.toNat_inj, binary64Mag]
  simp

/-- A finite magnitude is below the next exponent's power of two. -/
theorem abs_real64_lt (d : Binary64) : |real64 d| < 2 ^ (((binary64Exp d).toNat : ℤ) - 1022) := by
  have hfrac : ((binary64Frac d).toNat : ℚ) < 2 ^ 52 := by exact_mod_cast (binary64Frac d).isLt
  by_cases h0 : (binary64Exp d).toNat = 0
  · rw [abs_real64, binary64Mag, h0, Nat.zero_mul, Nat.zero_add, gridUnits_of_le (binary64Frac d).isLt.le]
    calc ((binary64Frac d).toNat : ℚ) * 2 ^ (-1074 : ℤ) < 2 ^ 52 * 2 ^ (-1074 : ℤ) := by gcongr
      _ = 2 ^ (((0 : ℕ) : ℤ) - 1022) := by rw [← zpow_natCast, ← zpow_add₀ two_ne_zero]; norm_num
  · have hexp : ((binary64Exp d).toNat : ℤ) - 1022 = ((binary64Exp d).toNat : ℤ) - 1023 + 1 := by ring
    rw [abs_real64_of_normal h0, hexp, zpow_add_one₀ two_ne_zero, mul_comm]
    gcongr
    rw [← lt_sub_iff_add_lt', div_lt_iff₀ (by positivity)]
    linarith

theorem le_abs_real64 {d : Binary64} (h : (binary64Exp d).toNat ≠ 0) :
    2 ^ (((binary64Exp d).toNat : ℤ) - 1023) ≤ |real64 d| := by
  rw [abs_real64_of_normal h]
  exact le_mul_of_one_le_left (by positivity) (le_add_of_nonneg_right (by positivity))

theorem real64_of_sign_zero {d : Binary64} (hs : binary64Sign d = 0) : real64 d = |real64 d| := by
  rw [abs_real64, real64_eq_gridUnits, hs]; simp

theorem real64_of_sign_one {d : Binary64} (hs : binary64Sign d = 1) : real64 d = -|real64 d| := by
  rw [abs_real64, real64_eq_gridUnits, hs]; simp

/-- The sign bit of a nonzero value is recorded as R61 records a sign. -/
theorem binary64Sign_of_ne_zero {d : Binary64} (h : real64 d ≠ 0) :
    binary64Sign d = if real64 d < 0 then 1 else 0 := by
  have habs := abs_pos.2 h
  rcases BitVec1_cases (binary64Sign d) with hs | hs
  · rw [hs, if_neg]; rw [real64_of_sign_zero hs]; exact habs.not_gt
  · rw [hs, if_pos]; rw [real64_of_sign_one hs]; exact neg_lt_zero.2 habs

/-! ### The decoder's rows -/

/-- DECODE delivers what the decoder computes under the spec's parameters (R54, R76). -/
theorem exec_decode_of_fpDecode {h : Sbfp} {d : Binary64} (hd : fpDecode specConfig h = d) (s : State) :
    exec (.decode h) s = .next (s.deliverDecoder h d) := by
  rw [← hd]; rfl

/-- A NaN takes the parameter's pattern, which carries its sign and fraction (R78, D8). -/
theorem fpDecode_of_nan {h : Sbfp} (hnan : classOf h = .nan) :
    fpDecode specConfig h = packBinary64 (sbfpSign h) 2047 (quietNaNFrac (sbfpFrac h)) := by
  obtain ⟨hexp, hfrac⟩ := (classOf_eq_nan_iff h).1 hnan
  rw [fpDecode, if_pos (show sbfpExp h = reservedExponent from hexp), if_neg hfrac]; rfl

theorem quietNaNFrac_toNat (f : BitVec 10) : (quietNaNFrac f).toNat = 2 ^ 51 + f.toNat * 2 ^ 41 := by
  rw [quietNaNFrac, BitVec.toNat_ofNat]
  have := f.isLt
  omega

theorem quietNaNFrac_ne_zero (f : BitVec 10) : quietNaNFrac f ≠ 0 := by
  intro h
  have hnat := congrArg BitVec.toNat h
  rw [quietNaNFrac_toNat] at hnat
  simp at hnat

/-- The NaN is quiet (R78). -/
theorem quiet_bit_packBinary64 (s : BitVec 1) (f : BitVec 10) :
    (packBinary64 s 2047 (quietNaNFrac f)).getLsbD 51 = true := by
  have := f.isLt
  rw [BitVec.getLsbD, Nat.testBit_eq_decide_div_mod_eq, decide_eq_true_iff, packBinary64_toNat, quietNaNFrac_toNat]
  omega

/-- The NaN carries the SBFP fraction in bits 50..41 (R60, R78). -/
theorem binary64NaNPayload_pack (s : BitVec 1) (f : BitVec 10) :
    binary64NaNPayload (packBinary64 s 2047 (quietNaNFrac f)) = f := by
  have := f.isLt
  apply BitVec.eq_of_toNat_eq
  rw [binary64NaNPayload, extract_toNat, packBinary64_toNat, quietNaNFrac_toNat]
  omega

theorem fpDecode_of_finite (c : Config) {h : Sbfp} (hf : classOf h = .finite) :
    fpDecode c h = bits64 (sbfpSign h) { num := significand h, exp := -10 + unbiasedExponent h } := by
  rw [fpDecode, if_neg (show sbfpExp h ≠ reservedExponent from (classOf_eq_finite_iff h).1 hf)]; rfl

/-- The exact magnitude that a finite pattern decodes to (R80 to R82). -/
theorem toRat_decoded (h : Sbfp) :
    (-1) ^ (sbfpSign h).toNat * ({ num := significand h, exp := -10 + unbiasedExponent h } : Magnitude).toRat =
      real h := by
  rw [← exact16_toRat, exact16, Magnitude.toRat_withSign]; rfl

theorem significand_eq_zero_iff (h : Sbfp) : significand h = 0 ↔ sbfpMag h = 0 := by
  rw [← isZero_iff_mag, isZero_iff, significand, ← BitVec.toNat_inj (x := sbfpFrac h)]
  split <;> simp_all

/-- A significand has its leading 1 among the lowest 11 bits (R51). -/
theorem log2_significand_le (h : Sbfp) : Nat.log2 (significand h) ≤ 10 := by
  by_cases hz : significand h = 0
  · rw [hz]; decide
  · exact Nat.lt_succ_iff.1 ((Nat.log2_lt hz).2 ((significand_le h).trans_lt (by norm_num)))

/-- DECODE of a finite pattern is exact (R82). -/
theorem real64_fpDecode (c : Config) {h : Sbfp} (hf : classOf h = .finite) : real64 (fpDecode c h) = real h := by
  have hexp := unbiasedExponent_range hf
  have hlog := log2_significand_le h
  rw [fpDecode_of_finite c hf]
  by_cases hz : significand h = 0
  · rw [real64_bits64_zero _ hz, (real_eq_zero_iff h).2 ((significand_eq_zero_iff h).1 hz)]
  · rw [real64_bits64 _ hz (by show Nat.log2 (significand h) ≤ 52; omega)
      (by show 1 ≤ -10 + unbiasedExponent h + Nat.log2 (significand h) + 1023; omega)
      (by show -10 + unbiasedExponent h + Nat.log2 (significand h) + 1023 ≤ 2046; omega), toRat_decoded]

/-- DECODE applies the sign bit to every result, zeros and NaNs included (R78, R81, D12). -/
theorem binary64Sign_fpDecode (h : Sbfp) : binary64Sign (fpDecode specConfig h) = sbfpSign h := by
  cases hc : classOf h with
  | posInf => rw [fpDecode_of_isInf _ (by rw [hc]; rfl), binary64Sign_pack]
  | negInf => rw [fpDecode_of_isInf _ (by rw [hc]; rfl), binary64Sign_pack]
  | nan => rw [fpDecode_of_nan hc, binary64Sign_pack]
  | finite => rw [fpDecode_of_finite _ hc, binary64Sign_bits64]

/-- A finite pattern decodes to a zero or a normal, with exponent field 0 for the zeros alone (R82, R84). -/
theorem binary64Exp_fpDecode_of_finite (c : Config) {h : Sbfp} (hf : classOf h = .finite) (hz : sbfpMag h ≠ 0) :
    999 ≤ (binary64Exp (fpDecode c h)).toNat ∧ (binary64Exp (fpDecode c h)).toNat ≤ 1038 := by
  have hexp := unbiasedExponent_range hf
  have hlog := log2_significand_le h
  have hfield := binary64Exp_bits64 (sbfpSign h) (m := { num := significand h, exp := -10 + unbiasedExponent h })
    (mt (significand_eq_zero_iff h).1 hz)
    (by show 1 ≤ -10 + unbiasedExponent h + Nat.log2 (significand h) + 1023; omega)
    (by show -10 + unbiasedExponent h + Nat.log2 (significand h) + 1023 ≤ 2046; omega)
  rw [fpDecode_of_finite c hf]
  have hfield' : ((binary64Exp (bits64 (sbfpSign h) { num := significand h, exp := -10 + unbiasedExponent h })).toNat
    : ℤ) = -10 + unbiasedExponent h + Nat.log2 (significand h) + 1023 := hfield
  omega

theorem fpDecode_of_zero (c : Config) {h : Sbfp} (hz : sbfpMag h = 0) :
    fpDecode c h = packBinary64 (sbfpSign h) 0 0 := by
  have hf : classOf h = .finite := (classOf_eq_finite_iff_mag h).2 (by omega)
  rw [fpDecode_of_finite c hf, bits64, if_pos ((significand_eq_zero_iff h).2 hz)]

/-- On finite patterns the steps build the rows of R83: the hidden bit is the leading 1 of a normal, and a denormal's
leading 1 is shifted out. -/
theorem fpDecode_eq_decodeTable_of_finite (c : Config) {h : Sbfp} (hf : classOf h = .finite) :
    fpDecode c h = decodeTable h := by
  have hexp31 := (classOf_eq_finite_iff h).1 hf
  rw [decodeTable, if_neg (by tauto), if_neg hexp31]
  by_cases he : sbfpExp h = 0
  · rw [if_neg (not_not.2 he)]
    by_cases hfrac : sbfpFrac h = 0
    · have hz : sbfpMag h = 0 := (isZero_iff_mag h).1 ((isZero_iff h).2 ⟨he, hfrac⟩)
      rw [if_pos hfrac, fpDecode_of_zero c hz]
    · have hfrac' : (sbfpFrac h).toNat ≠ 0 := fun h0 => hfrac (BitVec.eq_of_toNat_eq h0)
      have hexp : (-10 + (1 - bias) + Nat.log2 (sbfpFrac h).toNat + 1023 : ℤ) =
          ((leadingOne (sbfpFrac h) + 999 : ℕ) : ℤ) := by unfold bias leadingOne; push_cast; ring
      rw [if_neg hfrac, fpDecode_of_finite c hf, significand, unbiasedExponent, if_pos he, if_pos he, bits64,
        if_neg hfrac', hexp, BitVec.ofInt_natCast, Nat.shiftLeft_eq]
      rfl
  · have hlog : Nat.log2 (1024 + (sbfpFrac h).toNat) = 10 := by
      have hlt := (sbfpFrac h).isLt
      exact (Nat.log2_eq_iff (by omega)).2 (by omega)
    have hexp : (-10 + (((sbfpExp h).toNat : ℤ) - bias) + (10 : ℕ) + 1023 : ℤ) =
        (((sbfpExp h).toNat + 1008 : ℕ) : ℤ) := by unfold bias; push_cast; ring
    rw [if_pos he, fpDecode_of_finite c hf, significand, unbiasedExponent, if_neg he, if_neg he, bits64,
      if_neg (show 1024 + (sbfpFrac h).toNat ≠ 0 by omega)]
    simp only [hlog]
    rw [hexp, BitVec.ofInt_natCast, show 1024 + (sbfpFrac h).toNat - 2 ^ 10 = (sbfpFrac h).toNat by omega]

theorem fpDecode_eq_decodeTable (h : Sbfp) : fpDecode specConfig h = decodeTable h := by
  by_cases hf : classOf h = .finite
  · exact fpDecode_eq_decodeTable_of_finite _ hf
  · rw [classOf_eq_finite_iff, not_not] at hf
    by_cases hfrac : sbfpFrac h = 0
    · rw [fpDecode_of_isInf _ ((classOf_isInf_iff h).2 ⟨hf, hfrac⟩), decodeTable, if_pos ⟨hf, hfrac⟩]
    · rw [fpDecode_of_nan ((classOf_eq_nan_iff h).2 ⟨hf, hfrac⟩), decodeTable, if_neg (by tauto), if_pos hf]; rfl

/-! ### The obligations -/

/-- Settles O30: each class takes its own row of the table. -/
theorem decodeMatchesBitTable : Obligations.DecodeMatchesBitTable := fun h s =>
  exec_decode_of_fpDecode (fpDecode_eq_decodeTable h) s

/-- Settles O31: the decoded value is exact, and the binary64 grid counts each magnitude once. -/
theorem decodeIsExactAndUnique : Obligations.DecodeIsExactAndUnique := by
  intro h s hf
  have hreal := real64_fpDecode specConfig hf
  have hsign := binary64Sign_fpDecode h
  refine ⟨_, exec_decode_of_fpDecode rfl s, ?_, hsign, hreal, fun d' _ hsign' hreal' => ?_⟩
  · by_cases hz : sbfpMag h = 0
    · left
      rw [fpDecode_of_zero _ hz, binary64Kind, binary64Exp_pack, binary64Frac_pack]; rfl
    · right
      obtain ⟨hlo, hhi⟩ := binary64Exp_fpDecode_of_finite specConfig hf hz
      have hne (x : BitVec 11) (hx : x.toNat < 999 ∨ 1038 < x.toNat) : binary64Exp (fpDecode specConfig h) ≠ x := by
        rintro rfl; omega
      rw [binary64Kind, if_neg (hne 2047 (by decide)), if_neg (hne 0 (by decide))]
  · refine binary64_eq_of_sign_of_mag (hsign'.trans hsign.symm) ((abs_real64_eq_iff _ _).1 ?_)
    rw [hreal', hreal]

/-- Settles O33: the fields of the built pattern are the quiet bit, the fraction and zeros. -/
theorem decodeNaNIsQuietAndCarried : Obligations.DecodeNaNIsQuietAndCarried := by
  intro h s hnan
  obtain ⟨-, hfrac⟩ := (classOf_eq_nan_iff h).1 hnan
  refine ⟨_, exec_decode_of_fpDecode (fpDecode_of_nan hnan) s, ?_, binary64Sign_pack _ _ _, ?_, ?_⟩
  · have hquiet : (packBinary64 (sbfpSign h) 2047 (quietNaNFrac (sbfpFrac h))).getLsbD 51 = true :=
      quiet_bit_packBinary64 _ _
    rw [binary64Kind, binary64Exp_pack, binary64Frac_pack, if_pos rfl, if_neg (quietNaNFrac_ne_zero _), hquiet]
  · exact binary64NaNPayload_pack _ _
  · apply BitVec.eq_of_toNat_eq
    rw [extract_toNat, packBinary64_toNat, quietNaNFrac_toNat, show (0 : BitVec 41).toNat = 0 from rfl]
    omega

end Sys2Proof.Machine
end

section
/-! PROOFS. ENCODE (R59 to R75). On a finite input it is encodeQ of the exact value, so its bit-level table, its
saturation and its truncation are facts about the grid; with DECODE's exactness they give the round trip of R75. -/

namespace Sys2Proof.Machine

/-! ### The encoder by kind of input -/

/-- ENCODE delivers what the encoder computes under the spec's parameters (R54, R59). -/
theorem exec_encode_of_fpEncode {d : Binary64} {c : Sbfp} (hc : fpEncode specConfig d = c) (s : State) :
    exec (.encode d) s = .next (s.deliverEncoder d c) := by
  rw [← hc]; rfl

theorem fpEncode_of_finite (c : Config) {d : Binary64} (hd : binary64Exp d ≠ 2047) :
    fpEncode c d = encodeQ (real64 d) := by
  rw [fpEncode, if_neg hd, encodeExact_eq, exact64_toRat]

/-- A host Infinity gives the Infinity of its sign (R60, D6). -/
theorem fpEncode_of_hostInf {d : Binary64} (hd : binary64Exp d = 2047) (hf : binary64Frac d = 0) :
    fpEncode specConfig d = pack (binary64Sign d) 31 0 := by
  rw [fpEncode, if_pos hd, if_pos hf]; rfl

/-- A host NaN keeps its sign and the payload bits, or 1 where they are 0 (R60, D7). -/
theorem fpEncode_of_hostNaN {d : Binary64} (hd : binary64Exp d = 2047) (hf : binary64Frac d ≠ 0) :
    fpEncode specConfig d =
      pack (binary64Sign d) 31 (if binary64NaNPayload d = 0 then 1 else binary64NaNPayload d) := by
  rw [fpEncode, if_pos hd, if_neg hf]; rfl

theorem classOf_pack_nan (s : BitVec 1) {f : BitVec 10} (hf : f ≠ 0) : classOf (pack s 31 f) = .nan := by
  rw [classOf_eq_nan_iff, sbfpExp_pack, sbfpFrac_pack]; exact ⟨rfl, hf⟩

theorem classOf_pack_isInf (s : BitVec 1) : (classOf (pack s 31 0)).isInf = true := by
  rw [classOf_isInf_iff, sbfpExp_pack, sbfpFrac_pack]; exact ⟨rfl, rfl⟩

theorem payload_or_one_ne_zero (p : BitVec 10) : (if p = 0 then 1 else p) ≠ 0 := by
  split
  · decide
  · assumption

/-- A host NaN is encoded as a NaN (R60, D7). -/
theorem classOf_fpEncode_of_hostNaN {d : Binary64} (hd : binary64Exp d = 2047) (hf : binary64Frac d ≠ 0) :
    classOf (fpEncode specConfig d) = .nan := by
  rw [fpEncode_of_hostNaN hd hf]; exact classOf_pack_nan _ (payload_or_one_ne_zero _)

/-- The two Infinities are the patterns of the infinite classes (R44). -/
theorem classOf_isInf_iff_pattern (c : Sbfp) : (classOf c).isInf = true ↔ c = 0x7C00 ∨ c = 0xFC00 := by
  constructor
  · intro h
    have hmag := (classOf_isInf_iff_mag c).1 h
    rcases BitVec1_cases (sbfpSign c) with hs | hs
    · exact .inl (eq_of_sign_of_mag hs hmag)
    · exact .inr (eq_of_sign_of_mag hs hmag)
  · rintro (rfl | rfl) <;> rfl

/-! ### The bit-level table -/

/-- Cutting off low bits truncates. -/
theorem lt_natDiv_add_one (m n : ℕ) : (m : ℚ) / n < (m / n : ℕ) + 1 := by
  rw [← Nat.floor_div_eq_div (K := ℚ)]; exact Nat.lt_floor_add_one _

/-- The table's row for exponents 1009 to 1038: the fraction is cut to its 10 leading bits (R70). -/
theorem truncatesTo_of_normal_field {d : Binary64} (hlo : 1009 ≤ (binary64Exp d).toNat)
    (hhi : (binary64Exp d).toNat < 1039) :
    TruncatesTo |real64 d| (((binary64Exp d).toNat - 1008) * 2 ^ 10 + (binary64Frac d).toNat / 2 ^ 42) := by
  have hg := (binary64Frac d).isLt
  have hexp : ((binary64Exp d).toNat : ℤ) - 1023 = (((binary64Exp d).toNat - 1008 : ℕ) : ℤ) - 15 := by omega
  have hfrac : ((binary64Frac d).toNat : ℚ) / 2 ^ 52 = (binary64Frac d).toNat / (2 ^ 42 : ℕ) / 2 ^ 10 := by
    rw [div_div]; norm_num
  rw [abs_real64_of_normal (by omega), hexp, hfrac]
  exact truncatesTo_of_normal (by omega) (by omega) (by omega) Nat.cast_div_le (lt_natDiv_add_one _ _)

/-- In the row for exponents 999 to 1008 the shifted significand fits the fraction field (R70). -/
theorem shifted_significand_lt (d : Binary64) {n : ℕ} (hn : 43 ≤ n) :
    (2 ^ 52 + (binary64Frac d).toNat) / 2 ^ n < 2 ^ 10 := by
  have hg := (binary64Frac d).isLt
  rw [Nat.div_lt_iff_lt_mul (by positivity), ← pow_add]
  calc 2 ^ 52 + (binary64Frac d).toNat < 2 ^ 53 := by omega
    _ ≤ 2 ^ (10 + n) := Nat.pow_le_pow_right two_pos (by omega)

/-- The table's row for exponents 999 to 1008: the significand is shifted down to units of 2^-24 (R70). -/
theorem truncatesTo_of_denormal_field {d : Binary64} (hlo : 999 ≤ (binary64Exp d).toNat)
    (hhi : (binary64Exp d).toNat < 1009) :
    TruncatesTo |real64 d| ((2 ^ 52 + (binary64Frac d).toNat) / 2 ^ (1051 - (binary64Exp d).toNat)) := by
  obtain ⟨n, hn⟩ : ∃ n, 1051 - (binary64Exp d).toNat = n := ⟨_, rfl⟩
  have hexp : ((binary64Exp d).toNat : ℤ) - 1023 = -24 + ((52 : ℕ) : ℤ) - n := by omega
  have hvalue : |real64 d| = ((2 ^ 52 + (binary64Frac d).toNat : ℕ) : ℚ) / (2 ^ n : ℕ) * 2 ^ (-24 : ℤ) := by
    rw [abs_real64_of_normal (by omega), hexp, zpow_sub₀ two_ne_zero, zpow_add₀ two_ne_zero, zpow_natCast,
      zpow_natCast]
    push_cast
    field_simp
    norm_num
  rw [hn, hvalue]
  exact truncatesTo_of_denormal (shifted_significand_lt d (by omega)) Nat.cast_div_le (lt_natDiv_add_one _ _)

/-- Every finite row of the table is the truncation of the exact value (R70, R72). -/
theorem encodeQ_real64_eq_encodeTable {d : Binary64} (hd : binary64Exp d ≠ 2047) :
    encodeQ (real64 d) = encodeTable d := by
  rw [encodeTable, if_neg (by tauto), if_neg hd]
  by_cases hz : binary64Exp d = 0 ∧ binary64Frac d = 0
  · rw [if_pos hz, (real64_eq_zero_iff d).2 hz, encodeQ_zero]
  rw [if_neg hz]
  have hsign := binary64Sign_of_ne_zero (mt (real64_eq_zero_iff d).1 hz)
  split_ifs with hover hnormal hdenormal
  · have hexp : 2 ^ 16 ≤ |real64 d| := by
      refine le_trans ?_ (le_abs_real64 (by omega))
      exact_mod_cast zpow_le_zpow_right₀ (one_le_two (α := ℚ)) (show (16 : ℤ) ≤ (binary64Exp d).toNat - 1023 by omega)
    rw [encodeQ_of_overflow hexp, hsign]
  · have hg := (binary64Frac d).isLt
    refine encodeQ_eq_of_truncatesTo (by rw [sbfpSign_pack, hsign]) ?_
    rw [sbfpMag_pack, BitVec.toNat_ofNat, extract_toNat, Nat.mod_eq_of_lt (by omega), Nat.mod_eq_of_lt (by omega)]
    exact truncatesTo_of_normal_field hnormal (not_le.1 hover)
  · have htrunc := truncatesTo_of_denormal_field hdenormal (not_le.1 hnormal)
    have hlt := shifted_significand_lt d (n := 1051 - (binary64Exp d).toNat) (by omega)
    refine encodeQ_eq_of_truncatesTo (by rw [sbfpSign_pack, hsign]) ?_
    rw [sbfpMag_pack, BitVec.toNat_ofNat, Nat.shiftRight_eq_div_pow, Nat.mod_eq_of_lt hlt]
    rwa [show (0 : BitVec 5).toNat = 0 from rfl, Nat.zero_mul, Nat.zero_add]
  · have hexp : |real64 d| < 2 ^ (-24 : ℤ) :=
      (abs_real64_lt d).trans_le (zpow_le_zpow_right₀ one_le_two (by omega))
    rw [encodeQ_of_underflow hexp, hsign]

theorem fpEncode_eq_encodeTable (d : Binary64) : fpEncode specConfig d = encodeTable d := by
  by_cases hd : binary64Exp d = 2047
  · by_cases hf : binary64Frac d = 0
    · rw [fpEncode_of_hostInf hd hf, encodeTable, if_pos ⟨hd, hf⟩]
    · have hrow : ¬ (binary64Exp d = 2047 ∧ binary64Frac d = 0) := fun hc => hf hc.2
      rw [fpEncode_of_hostNaN hd hf, encodeTable, if_neg hrow, if_pos hd]
  · rw [fpEncode_of_finite _ hd, encodeQ_real64_eq_encodeTable hd]

/-! ### Error bounds -/

/-- The distance to the next magnitude is at most 2^-10 of the argument's exponent's power of two (R72). -/
theorem abs_sub_abs_real_encodeQ_lt_log {v : ℚ} (hlo : 2 ^ (-14 : ℤ) ≤ |v|) (hhi : |v| < 2 ^ 16) :
    |v| - |real (encodeQ v)| < 2 ^ (Int.log 2 |v| - 10) := by
  have hpos : 0 < |v| := lt_of_lt_of_le (by positivity) hlo
  have hexp : sbfpExp (encodeQ v) ≠ 0 := mt (sbfpExp_encodeQ_eq_zero_iff v).1 (not_lt.2 hlo)
  have hnormal : 2 ^ 10 ≤ sbfpMag (encodeQ v) := by
    rw [ne_eq, sbfpExp_eq_iff, show (0 : BitVec 5).toNat = 0 from rfl] at hexp; omega
  obtain ⟨e, he⟩ : ∃ e, sbfpMag (encodeQ v) / 2 ^ 10 - 1 = e := ⟨_, rfl⟩
  have hgap := abs_sub_abs_real_encodeQ_lt hhi
  have hunits := pow_le_gridUnits hnormal
  rw [he] at hgap hunits
  have hlog : (e : ℤ) - 14 ≤ Int.log 2 |v| := by
    rw [← Int.zpow_le_iff_le_log one_lt_two hpos]
    calc ((2 : ℕ) : ℚ) ^ ((e : ℤ) - 14) = (2 ^ 10 * 2 ^ e : ℕ) * 2 ^ (-24 : ℤ) := by
          rw [show (e : ℤ) - 14 = (10 : ℕ) + e + -24 by push_cast; ring, Nat.cast_ofNat, zpow_add₀ two_ne_zero,
            zpow_add₀ two_ne_zero, zpow_natCast, zpow_natCast]
          push_cast; ring
      _ ≤ gridUnits 10 (sbfpMag (encodeQ v)) * 2 ^ (-24 : ℤ) := by gcongr
      _ ≤ |v| := (encodeQ_truncates hhi).2.1
  calc |v| - |real (encodeQ v)| < 2 ^ e * 2 ^ (-24 : ℤ) := hgap
    _ = 2 ^ ((e : ℤ) - 14 - 10) := by
      rw [← zpow_natCast, ← zpow_add₀ two_ne_zero]; congr 1; ring
    _ ≤ 2 ^ (Int.log 2 |v| - 10) := zpow_le_zpow_right₀ one_le_two (by omega)

/-- On the normalized path the relative error is below 2^-10 (R72). -/
theorem abs_sub_abs_real_encodeQ_lt_relative {v : ℚ} (hlo : 2 ^ (-14 : ℤ) ≤ |v|) (hhi : |v| < 2 ^ 16) :
    |v| - |real (encodeQ v)| < |v| * 2 ^ (-10 : ℤ) := by
  have hpos : 0 < |v| := lt_of_lt_of_le (by positivity) hlo
  calc |v| - |real (encodeQ v)| < 2 ^ (Int.log 2 |v| - 10) := abs_sub_abs_real_encodeQ_lt_log hlo hhi
    _ = 2 ^ Int.log 2 |v| * 2 ^ (-10 : ℤ) := by rw [← zpow_add₀ two_ne_zero]; rfl
    _ ≤ |v| * 2 ^ (-10 : ℤ) := by
      gcongr
      exact_mod_cast Int.zpow_log_le_self one_lt_two hpos

/-- On the denormal path the error is below the smallest denormal (R72). -/
theorem abs_sub_abs_real_encodeQ_lt_denormal {v : ℚ} (h : |v| < 2 ^ (-14 : ℤ)) :
    |v| - |real (encodeQ v)| < 2 ^ (-24 : ℤ) := by
  have hexp := (sbfpExp_encodeQ_eq_zero_iff v).2 h
  rw [sbfpExp_eq_iff, show (0 : BitVec 5).toNat = 0 from rfl] at hexp
  have hgap := abs_sub_abs_real_encodeQ_lt (h.trans (by norm_num))
  rwa [hexp, Nat.zero_sub, pow_zero, one_mul] at hgap

/-- A nonzero result has the sign of the argument (R61). -/
theorem real_encodeQ_neg_iff {v : ℚ} (h : real (encodeQ v) ≠ 0) : real (encodeQ v) < 0 ↔ v < 0 := by
  have hmag : sbfpMag (encodeQ v) ≠ 0 := mt (real_eq_zero_iff _).2 h
  rw [real_neg_iff, sbfpSign_encodeQ, and_iff_left hmag]
  split
  · next hv => exact iff_of_true rfl hv
  · next hv => exact iff_of_false (by decide) hv

/-- On [65504, 65536) the result is the largest finite magnitude (R73). -/
theorem sbfpMag_encodeQ_of_top {v : ℚ} (hlo : 65504 ≤ |v|) (hhi : |v| < 65536) : sbfpMag (encodeQ v) = 0x7BFF := by
  have htop : |real 0x7BFF| = 65504 := by decide +kernel
  have htop' : gridUnits 10 (0x7BFF + 1) = 2 ^ 40 := by decide
  have htrunc : TruncatesTo |v| 0x7BFF := by
    refine ⟨by norm_num, ?_, ?_⟩
    · exact (abs_real 0x7BFF).ge.trans (htop.trans_le hlo)
    · rw [htop']; exact hhi.trans_eq (by norm_num)
  exact (encodeQ_truncates htrunc.lt_overflow).unique htrunc

/-! ### The round trip -/

theorem binary64Exp_fpDecode_ne {h : Sbfp} (hf : classOf h = .finite) :
    binary64Exp (fpDecode specConfig h) ≠ 2047 := by
  by_cases hz : sbfpMag h = 0
  · rw [fpDecode_of_zero _ hz, binary64Exp_pack]; decide
  · obtain ⟨-, hhi⟩ := binary64Exp_fpDecode_of_finite specConfig hf hz
    intro h2047
    rw [h2047] at hhi
    exact absurd hhi (by decide)

theorem fpEncode_fpDecode (h : Sbfp) :
    fpEncode specConfig (fpDecode specConfig h) = if h = 0x8000 then 0x0000 else h := by
  by_cases hf : classOf h = .finite
  · rw [fpEncode_of_finite _ (binary64Exp_fpDecode_ne hf), real64_fpDecode _ hf, encodeQ_real hf]
  · have hne : h ≠ 0x8000 := by rintro rfl; exact hf rfl
    have hexp : sbfpExp h = 31 := by rwa [classOf_eq_finite_iff, not_not] at hf
    rw [if_neg hne]
    by_cases hfrac : sbfpFrac h = 0
    · rw [fpDecode_of_isInf _ ((classOf_isInf_iff h).2 ⟨hexp, hfrac⟩),
        fpEncode_of_hostInf (binary64Exp_pack _ _ _) (binary64Frac_pack _ _ _), binary64Sign_pack]
      conv_rhs => rw [← pack_fields h, hexp, hfrac]
    · rw [fpDecode_of_nan ((classOf_eq_nan_iff h).2 ⟨hexp, hfrac⟩),
        fpEncode_of_hostNaN (binary64Exp_pack _ _ _) (binary64Frac_pack _ _ _ ▸ quietNaNFrac_ne_zero _),
        binary64Sign_pack, binary64NaNPayload_pack, if_neg hfrac]
      conv_rhs => rw [← pack_fields h, hexp]

/-- DECODE loses nothing: its sign bit tells the zeros apart, the round trip everything else (R84). -/
theorem fpDecode_injective : Function.Injective (fpDecode specConfig) := by
  intro h h' heq
  have hsign : sbfpSign h = sbfpSign h' := by rw [← binary64Sign_fpDecode, heq, binary64Sign_fpDecode]
  have htrip : (if h = 0x8000 then 0x0000 else h) = if h' = 0x8000 then 0x0000 else h' := by
    rw [← fpEncode_fpDecode, heq, fpEncode_fpDecode]
  have hmag (c : Sbfp) : sbfpMag (if c = 0x8000 then 0x0000 else c) = sbfpMag c := by
    split
    · next hc => rw [hc]; rfl
    · rfl
  exact eq_of_sign_of_mag hsign (by rw [← hmag h, htrip, hmag h'])

/-! ### Negation -/

theorem binary64_xor_sign (d : Binary64) :
    d ^^^ 0x8000000000000000 = packBinary64 (binary64Sign d ^^^ 1) (binary64Exp d) (binary64Frac d) := by
  rw [← packBinary64_fields (d ^^^ 0x8000000000000000)]
  congr 1
  · rw [binary64Sign, BitVec.extractLsb'_xor]; rfl
  · rw [binary64Exp, BitVec.extractLsb'_xor]; exact BitVec.xor_zero
  · rw [binary64Frac, BitVec.extractLsb'_xor]; exact BitVec.xor_zero

theorem real64_xor_sign (d : Binary64) : real64 (d ^^^ 0x8000000000000000) = -real64 d := by
  have hmag : binary64Mag (d ^^^ 0x8000000000000000) = binary64Mag d := by
    rw [binary64_xor_sign, binary64Mag, binary64Exp_pack, binary64Frac_pack, binary64Mag]
  have habs := (abs_real64_eq_iff _ _).2 hmag
  have hsign : binary64Sign (d ^^^ 0x8000000000000000) = binary64Sign d ^^^ 1 := by
    rw [binary64_xor_sign, binary64Sign_pack]
  rcases BitVec1_cases (binary64Sign d) with hs | hs
  · rw [real64_of_sign_one (by rw [hsign, hs]; rfl), habs, real64_of_sign_zero hs, abs_abs]
  · rw [real64_of_sign_zero (by rw [hsign, hs]; rfl), habs, real64_of_sign_one hs, abs_neg, abs_abs, neg_neg]

/-! ### The obligations -/

/-- Settles O19: each row of the table is the truncation of the exact value, or step 0's pattern. -/
theorem encodeMatchesBitTable : Obligations.EncodeMatchesBitTable := fun d s =>
  exec_encode_of_fpEncode (fpEncode_eq_encodeTable d) s

/-- Settles O20: the machine's steps are encodeQ of the exact value. -/
theorem encodeIsEncodeQ : Obligations.EncodeIsEncodeQ :=
  ⟨fun _ s hd => exec_encode_finite hd rfl s, encodeQ_zero⟩

/-- Settles O21: step 0 builds both patterns from the fields. -/
theorem encodeHostInfinityAndNaN : Obligations.EncodeHostInfinityAndNaN := by
  intro d s hd
  refine ⟨_, exec_encode_of_fpEncode rfl s, ?_⟩
  by_cases hf : binary64Frac d = 0
  · rw [fpEncode_of_hostInf hd hf, sbfpSign_pack, sbfpExp_pack, sbfpFrac_pack]
    exact ⟨rfl, rfl, fun _ => rfl, fun hne => absurd hf hne⟩
  · have hnan := classOf_fpEncode_of_hostNaN hd hf
    rw [fpEncode_of_hostNaN hd hf] at hnan ⊢
    rw [sbfpSign_pack, sbfpExp_pack, sbfpFrac_pack]
    exact ⟨rfl, rfl, fun hz => absurd hz hf, fun _ => ⟨hnan, fun hp => if_neg hp, fun hp => if_pos hp⟩⟩

/-- Settles O22: encodeQ writes the sign of the value and the magnitude bits of its magnitude. -/
theorem encodeRecordsSign : Obligations.EncodeRecordsSign := by
  refine ⟨fun d s hd => ⟨_, exec_encode_finite hd rfl s, sbfpSign_encodeQ _, ?_⟩, fun d s hd => ?_⟩
  · apply BitVec.eq_of_toNat_eq
    rw [← sbfpMag_eq_extract, ← sbfpMag_eq_extract, sbfpMag_encodeQ_congr (abs_abs _).symm]
  · have hzero : encodeQ (real64 d) = 0 := by
      rw [(real64_eq_zero_iff d).2 (by rcases hd with rfl | rfl <;> decide), encodeQ_zero]
    exact exec_encode_finite (by rcases hd with rfl | rfl <;> decide) hzero s

/-- Settles O26: the overflow threshold decides the Infinities, and 65504 is the last magnitude below it. -/
theorem encodeSaturationNeighbourhood : Obligations.EncodeSaturationNeighbourhood := by
  intro d s
  refine ⟨_, exec_encode_of_fpEncode rfl s, ?_, fun hd hlo hhi => ?_⟩
  · rw [← classOf_isInf_iff_pattern]
    by_cases hd : binary64Exp d = 2047
    · by_cases hf : binary64Frac d = 0
      · rw [fpEncode_of_hostInf hd hf]
        exact iff_of_true (classOf_pack_isInf _) (.inl ⟨hd, hf⟩)
      · rw [classOf_fpEncode_of_hostNaN hd hf]
        exact iff_of_false (by decide) (by tauto)
    · rw [fpEncode_of_finite _ hd, classOf_encodeQ_isInf_iff]
      norm_num [hd]
  · have hmag := sbfpMag_encodeQ_of_top hlo hhi
    have hsign := sbfpSign_encodeQ (real64 d)
    rw [fpEncode_of_finite _ hd]
    split_ifs at hsign ⊢
    · exact eq_of_sign_of_mag hsign hmag
    · exact eq_of_sign_of_mag hsign hmag

/-- Settles O27: the result is the last grid magnitude not above the input, and the grid's distances bound the
error. -/
theorem encodeTruncatesTowardZero : Obligations.EncodeTruncatesTowardZero := by
  intro d s hd hlt
  have hv : |real64 d| < 2 ^ 16 := hlt.trans_eq (by norm_num)
  have hfin := (classOf_encodeQ_finite_iff _).2 hv
  exact ⟨_, _, exec_encode_finite hd rfl s, exec_decode_of_fpDecode rfl s, hfin, real64_fpDecode _ hfin,
    abs_real_encodeQ_le hv, real_encodeQ_neg_iff, fun h _ => abs_real_le_encodeQ hv,
    fun hlo => ⟨abs_sub_abs_real_encodeQ_lt_log hlo hv, abs_sub_abs_real_encodeQ_lt_relative hlo hv⟩,
    abs_sub_abs_real_encodeQ_lt_denormal⟩

/-- Settles O28: flipping the sign bit negates the value, and encodeQ of the negated value flips its own. -/
theorem encodeNegationFlipsSign : Obligations.EncodeNegationFlipsSign := by
  intro d s hd hne
  have hd' : binary64Exp (d ^^^ 0x8000000000000000) ≠ 2047 := by rwa [binary64_xor_sign, binary64Exp_pack]
  exact ⟨_, exec_encode_finite hd rfl s, exec_encode_finite hd' (by rw [real64_xor_sign, encodeQ_neg hne]) s⟩

/-- Settles O29: a finite pattern's value is decoded exactly and re-encoded as its pattern, the others keep their
fields. -/
theorem sbfpRoundTripsThroughBinary64 : Obligations.SbfpRoundTripsThroughBinary64 := fun h s =>
  ⟨_, exec_decode_of_fpDecode rfl s, exec_encode_of_fpEncode (fpEncode_fpDecode h) _⟩

/-- Settles O34: the output is the decoded pattern itself. -/
theorem decodeIsInjective : Obligations.DecodeIsInjective := by
  intro h h' s s' t t' ht ht' hr
  cases (exec_decode_of_fpDecode rfl s).symm.trans ht
  cases (exec_decode_of_fpDecode rfl s').symm.trans ht'
  exact fpDecode_injective hr

end Sys2Proof.Machine
end

section
/-! PROOFS. MUL (R86 to R97). Two operands fall into four cases: a NaN, Infinity times zero, an Infinity without a zero,
and two finite values, whose product is re-encoded exactly once. Each case is said once, for every configuration. -/

namespace Sys2Proof.Machine

/-! ### The cases of the multiplier -/

/-- Infinity times zero, in either order (R91). -/
def InfTimesZero (a b : Sbfp) : Prop :=
  ((classOf a).isInf = true ∧ isZero b = true) ∨ (isZero a = true ∧ (classOf b).isInf = true)

/-- One operand is an Infinity, and neither is a NaN or a zero (R89, R90). -/
def InfTimesNonzero (a b : Sbfp) : Prop :=
  ((classOf a).isInf = true ∨ (classOf b).isInf = true) ∧ classOf a ≠ .nan ∧ classOf b ≠ .nan ∧
    isZero a = false ∧ isZero b = false

theorem isZero_eq_false_iff_mag (h : Sbfp) : isZero h = false ↔ sbfpMag h ≠ 0 := by
  rw [← Bool.not_eq_true, isZero_iff_mag]

/-- The four cases, of which the first, the third and the fourth exclude Infinity times zero. -/
theorem mul_cases (a b : Sbfp) :
    ((classOf a = .nan ∨ classOf b = .nan) ∧ ¬ InfTimesZero a b) ∨
    InfTimesZero a b ∨
    (InfTimesNonzero a b ∧ ¬ InfTimesZero a b) ∨
    ((classOf a = .finite ∧ classOf b = .finite) ∧ ¬ InfTimesZero a b) := by
  simp only [InfTimesZero, InfTimesNonzero, ne_eq, classOf_eq_nan_iff_mag, classOf_isInf_iff_mag,
    classOf_eq_finite_iff_mag, isZero_iff_mag, isZero_eq_false_iff_mag]
  omega

theorem infTimesZero_comm (a b : Sbfp) : InfTimesZero a b ↔ InfTimesZero b a := by
  unfold InfTimesZero; tauto

theorem ne_nan_of_infTimesZero {a b : Sbfp} (h : InfTimesZero a b) : classOf a ≠ .nan ∧ classOf b ≠ .nan := by
  simp only [InfTimesZero, classOf_isInf_iff_mag, isZero_iff_mag] at h
  rw [ne_eq, ne_eq, classOf_eq_nan_iff_mag, classOf_eq_nan_iff_mag]
  omega

theorem fpMultiply_of_nan (c : Config) {a b : Sbfp} (h : classOf a = .nan ∨ classOf b = .nan) :
    fpMultiply c a b = c.arithNaN :=
  if_pos h

/-- The result that MUL_INF_ZERO selects (R91, U4). -/
def infZeroResult (c : Config) : Sbfp :=
  match c.mulInfZero with
  | .nan => c.arithNaN
  | .zero => 0

theorem fpMultiply_of_infTimesZero (c : Config) {a b : Sbfp} (h : InfTimesZero a b) :
    fpMultiply c a b = infZeroResult c := by
  have hinf : (classOf a).isInf = true ∨ (classOf b).isInf = true := h.imp And.left And.right
  have hzero : isZero a = true ∨ isZero b = true := h.symm.imp And.left And.right
  rw [fpMultiply, if_neg (not_or.2 (ne_nan_of_infTimesZero h)), if_pos hinf, if_pos hzero]; rfl

theorem fpMultiply_of_infTimesNonzero (c : Config) {a b : Sbfp} (h : InfTimesNonzero a b) :
    fpMultiply c a b = pack (sbfpSign a ^^^ sbfpSign b) 31 0 := by
  obtain ⟨hinf, hna, hnb, hza, hzb⟩ := h
  exact fpMultiply_of_isInf c hinf hna hnb hza hzb

/-! ### The exact product -/

/-- The value of a finite pattern from its parts (R43, R50). -/
theorem real_eq_unpack (h : Sbfp) :
    real h = (-1) ^ (unpack h).sign.toNat * ((unpack h).mantissa.toRat * 2 ^ (unpack h).exponent) := by
  rw [← exact16_toRat, exact16, Magnitude.toRat_withSign, Magnitude.toRat_scale]

theorem neg_one_pow_xor (s t : BitVec 1) :
    (-1 : ℚ) ^ (s ^^^ t).toNat = (-1) ^ s.toNat * (-1) ^ t.toNat := by
  rcases BitVec1_cases s with rfl | rfl <;> rcases BitVec1_cases t with rfl | rfl <;> simp

/-- XORed signs, added exponents and multiplied mantissas are the product of the values (R92, R93). -/
theorem toRat_exactProduct (a b : Sbfp) : (exactProduct a b).toRat = real a * real b := by
  rw [exactProduct, Magnitude.toRat_withSign, Magnitude.toRat_scale, Magnitude.toRat_mul, neg_one_pow_xor,
    zpow_add₀ two_ne_zero, real_eq_unpack a, real_eq_unpack b]
  ring

theorem fpMultiply_eq_encodeExact (c : Config) {a b : Sbfp} (ha : classOf a = .finite) (hb : classOf b = .finite) :
    fpMultiply c a b = encodeExact (exactProduct a b) := by
  rw [fpMultiply, if_neg (by rw [ha, hb]; decide), if_neg (by rw [ha, hb]; decide)]

theorem fpMultiply_of_finite (c : Config) {a b : Sbfp} (ha : classOf a = .finite) (hb : classOf b = .finite) :
    fpMultiply c a b = encodeQ (real a * real b) := by
  rw [fpMultiply_eq_encodeExact c ha hb, encodeExact_eq, toRat_exactProduct]

theorem fpMultiply_comm (c : Config) (a b : Sbfp) : fpMultiply c a b = fpMultiply c b a := by
  rcases mul_cases a b with ⟨hnan, -⟩ | hzero | ⟨hinf, -⟩ | ⟨⟨ha, hb⟩, -⟩
  · rw [fpMultiply_of_nan c hnan, fpMultiply_of_nan c hnan.symm]
  · rw [fpMultiply_of_infTimesZero c hzero, fpMultiply_of_infTimesZero c ((infTimesZero_comm a b).1 hzero)]
  · obtain ⟨hab, hna, hnb, hza, hzb⟩ := hinf
    rw [fpMultiply_of_isInf c hab hna hnb hza hzb, fpMultiply_of_isInf c hab.symm hnb hna hzb hza, BitVec.xor_comm]
  · rw [fpMultiply_of_finite c ha hb, fpMultiply_of_finite c hb ha, mul_comm]

/-- Outside Infinity times zero the multiplier reads no parameter but the arithmetic NaN (R91). -/
theorem fpMultiply_congr {c c' : Config} (hnan : c.arithNaN = c'.arithNaN) {a b : Sbfp} (h : ¬ InfTimesZero a b) :
    fpMultiply c a b = fpMultiply c' a b := by
  rcases mul_cases a b with ⟨hn, -⟩ | hzero | ⟨hinf, -⟩ | ⟨⟨ha, hb⟩, -⟩
  · rw [fpMultiply_of_nan c hn, fpMultiply_of_nan c' hn, hnan]
  · exact absurd hzero h
  · rw [fpMultiply_of_infTimesNonzero c hinf, fpMultiply_of_infTimesNonzero c' hinf]
  · rw [fpMultiply_of_finite c ha hb, fpMultiply_of_finite c' ha hb]

/-- A nonzero product has the XOR of the signs (R92). -/
theorem sign_of_product {a b : Sbfp} (h : real a * real b ≠ 0) :
    (if real a * real b < 0 then 1 else 0) = sbfpSign a ^^^ sbfpSign b := by
  obtain ⟨ha, hb⟩ := mul_ne_zero_iff.1 h
  rw [sbfpSign_of_mag_ne_zero (mt (real_eq_zero_iff a).2 ha), sbfpSign_of_mag_ne_zero (mt (real_eq_zero_iff b).2 hb)]
  rcases ha.lt_or_gt with ha | ha <;> rcases hb.lt_or_gt with hb | hb
  · rw [if_neg (mul_pos_of_neg_of_neg ha hb).not_gt, if_pos ha, if_pos hb]; rfl
  · rw [if_pos (mul_neg_of_neg_of_pos ha hb), if_pos ha, if_neg hb.not_gt]; rfl
  · rw [if_pos (mul_neg_of_pos_of_neg ha hb), if_neg ha.not_gt, if_pos hb]; rfl
  · rw [if_neg (mul_pos ha hb).not_gt, if_neg ha.not_gt, if_neg hb.not_gt]; rfl

/-- A zero product is a product with a zero (R94). -/
theorem product_eq_zero_iff (a b : Sbfp) : isZero a = true ∨ isZero b = true ↔ real a * real b = 0 := by
  rw [mul_eq_zero, real_eq_zero_iff, real_eq_zero_iff, isZero_iff_mag, isZero_iff_mag]

/-! ### The integer datapath -/

theorem significand11_toNat (h : Sbfp) : (significand11 h).toNat = significand h := by
  have := (sbfpFrac h).isLt
  rw [significand11, significand, BitVec.toNat_ofNat]
  split <;> omega

theorem exponent6_toInt {h : Sbfp} (hf : classOf h = .finite) : (exponent6 h).toInt = unbiasedExponent h := by
  have hfield : ∀ e : BitVec 5, e ≠ 31 → e ≠ 0 → (e.setWidth 6 - 15).toInt = e.toNat - 15 := by decide
  rw [exponent6, unbiasedExponent]
  split
  · rfl
  · next h0 => exact hfield _ ((classOf_eq_finite_iff h).1 hf) h0

/-- 22 bits hold every product of two 11-bit significands (R97). -/
theorem productField_toNat (a b : Sbfp) : (productField a b).toNat = significand a * significand b := by
  have ha := significand_le a
  have hb := significand_le b
  have hlt : significand a * significand b < 2 ^ 22 := (Nat.mul_le_mul ha hb).trans_lt (by norm_num)
  rw [productField, BitVec.toNat_mul, BitVec.toNat_setWidth, BitVec.toNat_setWidth, significand11_toNat,
    significand11_toNat, Nat.mod_eq_of_lt (a := significand a) (by omega),
    Nat.mod_eq_of_lt (a := significand b) (by omega), Nat.mod_eq_of_lt hlt]

/-- 6 bits hold every sum of two unbiased exponents (R97). -/
theorem exponentSum6_toInt {a b : Sbfp} (ha : classOf a = .finite) (hb : classOf b = .finite) :
    (exponentSum6 a b).toInt = unbiasedExponent a + unbiasedExponent b := by
  have hEa := unbiasedExponent_range ha
  have hEb := unbiasedExponent_range hb
  rw [exponentSum6, BitVec.toInt_add, exponent6_toInt ha, exponent6_toInt hb,
    Int.bmod_eq_of_le (by omega) (by omega)]

theorem mulDatapath_eq {a b : Sbfp} (ha : classOf a = .finite) (hb : classOf b = .finite) :
    mulDatapath a b = encodeExact (exactProduct a b) := by
  have hexp : unbiasedExponent a + unbiasedExponent b - 20 =
      (-10 : ℤ) + -10 + (unbiasedExponent a + unbiasedExponent b) := by ring
  rw [mulDatapath, productField_toNat, exponentSum6_toInt ha hb, hexp]; rfl

/-! ### The special-value table -/

theorem sbfpSign_of_posInf {h : Sbfp} (hc : classOf h = .posInf) : sbfpSign h = 0#1 := by
  unfold classOf at hc; split_ifs at hc; assumption

theorem sbfpSign_of_negInf {h : Sbfp} (hc : classOf h = .negInf) : sbfpSign h = 1 := by
  unfold classOf at hc
  split_ifs at hc with _ hs
  exact (BitVec1_cases (sbfpSign h)).resolve_left hs

/-- The rows of R87 with two Infinities. -/
theorem fpMultiply_of_isInf_isInf {a b : Sbfp} (ha : (classOf a).isInf = true) (hb : (classOf b).isInf = true) :
    fpMultiply specConfig a b = pack (sbfpSign a ^^^ sbfpSign b) 31 0 :=
  fpMultiply_of_isInf _ (.inl ha) (classOf_ne_nan_of_isInf ha) (classOf_ne_nan_of_isInf hb) (isZero_of_isInf ha)
    (isZero_of_isInf hb)

/-- The rows of R87 with an Infinity and a finite operand. -/
theorem fpMultiply_of_isInf_finite {a b : Sbfp} (ha : (classOf a).isInf = true) (hb : classOf b = .finite) :
    fpMultiply specConfig a b = if isZero b = true then 0x7C01 else pack (sbfpSign a ^^^ sbfpSign b) 31 0 := by
  have hnb : classOf b ≠ .nan := by rw [hb]; decide
  split
  · next hz => exact fpMultiply_of_infTimesZero _ (.inl ⟨ha, hz⟩)
  · next hz =>
    exact fpMultiply_of_isInf _ (.inl ha) (classOf_ne_nan_of_isInf ha) hnb (isZero_of_isInf ha)
      (Bool.eq_false_iff.2 hz)

theorem isInf_of_posInf {h : Sbfp} (hc : classOf h = .posInf) : (classOf h).isInf = true := by rw [hc]; rfl

theorem isInf_of_negInf {h : Sbfp} (hc : classOf h = .negInf) : (classOf h).isInf = true := by rw [hc]; rfl

/-- Row by row, R87's table is what the multiplier's cases give. -/
theorem fpMultiply_eq_of_mulTable {a b c : Sbfp} (h : mulTable a b = some c) : fpMultiply specConfig a b = c := by
  unfold mulTable at h
  split at h <;> cases h
  next ha => exact fpMultiply_of_nan _ (.inl ha)
  next hb _ => exact fpMultiply_of_nan _ (.inr hb)
  next ha hb =>
    rw [fpMultiply_of_isInf_isInf (isInf_of_posInf ha) (isInf_of_posInf hb), sbfpSign_of_posInf ha,
      sbfpSign_of_posInf hb]; rfl
  next ha hb =>
    rw [fpMultiply_of_isInf_isInf (isInf_of_posInf ha) (isInf_of_negInf hb), sbfpSign_of_posInf ha,
      sbfpSign_of_negInf hb]; rfl
  next ha hb =>
    rw [fpMultiply_of_isInf_isInf (isInf_of_negInf ha) (isInf_of_posInf hb), sbfpSign_of_negInf ha,
      sbfpSign_of_posInf hb]; rfl
  next ha hb =>
    rw [fpMultiply_of_isInf_isInf (isInf_of_negInf ha) (isInf_of_negInf hb), sbfpSign_of_negInf ha,
      sbfpSign_of_negInf hb]; rfl
  next ha hb => rw [fpMultiply_of_isInf_finite (isInf_of_posInf ha) hb, sbfpSign_of_posInf ha, BitVec.zero_xor]
  next ha hb => rw [fpMultiply_of_isInf_finite (isInf_of_negInf ha) hb, sbfpSign_of_negInf ha]
  next ha hb =>
    rw [fpMultiply_comm, fpMultiply_of_isInf_finite (isInf_of_posInf hb) ha, sbfpSign_of_posInf hb, BitVec.zero_xor]
  next ha hb => rw [fpMultiply_comm, fpMultiply_of_isInf_finite (isInf_of_negInf hb) ha, sbfpSign_of_negInf hb]

/-! ### The obligations -/

/-- Settles O35: each row is a case of the multiplier with the signs of the Infinities put in. -/
theorem mulFollowsSpecialTable : Obligations.MulFollowsSpecialTable := fun _ _ _ s h =>
  exec_mul_of_fpMultiply (fpMultiply_eq_of_mulTable h) s

/-- Settles O37: of the multiplier's cases only Infinity times zero reads the parameter. -/
theorem mulInfZeroParameterIsLocal : Obligations.MulInfZeroParameterIsLocal := by
  intro c a b
  split
  · next h => exact fpMultiply_of_infTimesZero _ h
  · next h => exact fpMultiply_congr (by rfl) h

/-- Settles O38: the product is exact and re-encoded once. -/
theorem mulIsTruncatedExactProduct : Obligations.MulIsTruncatedExactProduct := fun _ _ s ha hb =>
  exec_mul_of_fpMultiply (fpMultiply_of_finite _ ha hb) s

/-- Settles O39: no field overflows, so the datapath forms the exact product. -/
theorem mulMatchesIntegerDatapath : Obligations.MulMatchesIntegerDatapath := by
  intro a b s ha hb
  have hEa := unbiasedExponent_range ha
  have hEb := unbiasedExponent_range hb
  have hmul : fpMultiply specConfig a b = mulDatapath a b := by
    rw [fpMultiply_eq_encodeExact _ ha hb, mulDatapath_eq ha hb]
  refine ⟨exec_mul_of_fpMultiply hmul s, productField_toNat a b, ?_, exponentSum6_toInt ha hb, ?_, ?_⟩
  · rw [productField_toNat, sq]
    exact Nat.mul_le_mul (significand_le a) (significand_le b)
  · rw [exponentSum6_toInt ha hb]; omega
  · rw [exponentSum6_toInt ha hb]; omega

/-- Settles O40: a zero product is re-encoded as encodeQ of 0, which has no sign. -/
theorem mulZeroProductIsPositiveZero : Obligations.MulZeroProductIsPositiveZero := by
  intro a b s ha hb
  refine ⟨product_eq_zero_iff a b, fun hz => exec_mul_of_fpMultiply (c := 0x0000) ?_ s⟩
  rw [fpMultiply_of_finite _ ha hb, (product_eq_zero_iff a b).1 hz, encodeQ_zero]

/-- Settles O41: the ranges are those of encodeQ, with the product's sign. -/
theorem mulResultRanges : Obligations.MulResultRanges := by
  intro a b s ha hb
  refine ⟨_, exec_mul_of_fpMultiply (fpMultiply_of_finite _ ha hb) s, classOf_encodeQ_ne_nan _, fun hover => ?_,
    fun hne hunder => ?_, fun hne => ?_, fun hlt => ?_⟩
  · have hne : real a * real b ≠ 0 := abs_pos.1 (lt_of_lt_of_le (by norm_num) hover)
    rw [encodeQ_of_overflow (le_trans (by norm_num) hover), sign_of_product hne]
  · rw [encodeQ_of_underflow hunder, sign_of_product hne]
  · rw [sbfpSign_encodeQ, sign_of_product hne]
  · have hv : |real a * real b| < 2 ^ 16 := hlt.trans_eq (by norm_num)
    exact ⟨(classOf_encodeQ_finite_iff _).2 hv, abs_real_encodeQ_le hv, fun h _ => abs_real_le_encodeQ hv⟩

/-- Settles O42: every case of the multiplier is symmetric. -/
theorem mulCommutes : Obligations.MulCommutes := fun a b s =>
  ⟨_, exec_mul_of_fpMultiply rfl s, exec_mul_of_fpMultiply (fpMultiply_comm _ b a) s⟩

/-- Settles O43: 1.0 is neither a NaN nor an Infinity nor a zero, and it leaves sign and value as they are. -/
theorem mulByOneIsIdentity : Obligations.MulByOneIsIdentity := by
  intro a s
  refine ⟨_, exec_mul_of_fpMultiply rfl s, ?_⟩
  rcases mul_cases a 0x3C00 with ⟨hnan, -⟩ | hzero | ⟨hinf, -⟩ | ⟨⟨ha, hb⟩, -⟩
  · have ha : classOf a = .nan := hnan.resolve_right (by decide)
    rw [fpMultiply_of_nan _ hnan, if_pos ha]; rfl
  · rcases hzero with ⟨-, hb⟩ | ⟨-, hb⟩ <;> exact absurd hb (by decide)
  · obtain ⟨hor, hna, -, hza, -⟩ := id hinf
    have ha : (classOf a).isInf = true := hor.resolve_right (by decide)
    obtain ⟨hexp, hfrac⟩ := (classOf_isInf_iff a).1 ha
    have hne : a ≠ 0x8000 := by rintro rfl; exact absurd hza (by decide)
    have hsign : sbfpSign a ^^^ sbfpSign 0x3C00 = sbfpSign a := BitVec.xor_zero
    rw [fpMultiply_of_infTimesNonzero _ hinf, if_neg hna, if_neg hne, hsign]
    conv_rhs => rw [← pack_fields a, hexp, hfrac]
  · have hone : real 0x3C00 = 1 := by decide +kernel
    have hna : classOf a ≠ .nan := by rw [ha]; decide
    rw [fpMultiply_of_finite _ ha hb, hone, mul_one, encodeQ_real ha, if_neg hna]

end Sys2Proof.Machine
end

section
/-! PROOFS. ADD (R98 to R109). A NaN, Infinities of opposite signs, an Infinity that absorbs the other operand, and two
finite values whose sum is exact and re-encoded once. -/

namespace Sys2Proof.Machine

/-! ### The cases of the adder -/

/-- Infinities of opposite signs (R101). -/
def OppositeInfs (a b : Sbfp) : Prop :=
  (classOf a).isInf = true ∧ (classOf b).isInf = true ∧ classOf a ≠ classOf b

/-- The first operand is an Infinity that the second one does not change: a finite one or the same (R101, R102). -/
def Absorbs (a b : Sbfp) : Prop :=
  (classOf a).isInf = true ∧ (classOf b = .finite ∨ classOf b = classOf a)

theorem class_cases (h : Sbfp) : classOf h = .nan ∨ (classOf h).isInf = true ∨ classOf h = .finite := by
  rw [classOf_eq_nan_iff_mag, classOf_isInf_iff_mag, classOf_eq_finite_iff_mag]
  omega

theorem add_cases (a b : Sbfp) :
    (classOf a = .nan ∨ classOf b = .nan) ∨ OppositeInfs a b ∨ Absorbs a b ∨ Absorbs b a ∨
    (classOf a = .finite ∧ classOf b = .finite) := by
  rcases class_cases a with ha | ha | ha
  · exact .inl (.inl ha)
  · rcases class_cases b with hb | hb | hb
    · exact .inl (.inr hb)
    · by_cases heq : classOf b = classOf a
      · exact .inr (.inr (.inl ⟨ha, .inr heq⟩))
      · exact .inr (.inl ⟨ha, hb, Ne.symm heq⟩)
    · exact .inr (.inr (.inl ⟨ha, .inl hb⟩))
  · rcases class_cases b with hb | hb | hb
    · exact .inl (.inr hb)
    · exact .inr (.inr (.inr (.inl ⟨hb, .inl ha⟩)))
    · exact .inr (.inr (.inr (.inr ⟨ha, hb⟩)))

theorem fpAdd_of_nan (c : Config) {a b : Sbfp} (h : classOf a = .nan ∨ classOf b = .nan) : fpAdd c a b = c.arithNaN :=
  if_pos h

theorem fpAdd_of_oppositeInfs (c : Config) {a b : Sbfp} (h : OppositeInfs a b) : fpAdd c a b = c.arithNaN := by
  obtain ⟨ha, hb, hne⟩ := h
  rw [fpAdd, if_neg (not_or.2 ⟨classOf_ne_nan_of_isInf ha, classOf_ne_nan_of_isInf hb⟩), if_pos ⟨ha, hb⟩, if_neg hne]

theorem fpAdd_of_absorbs_left (c : Config) {a b : Sbfp} (h : Absorbs a b) : fpAdd c a b = a := by
  obtain ⟨ha, hb⟩ := h
  have hna := classOf_ne_nan_of_isInf ha
  rcases hb with hb | hb
  · rw [fpAdd, if_neg (by rw [hb]; tauto), if_neg (by rw [hb]; tauto), if_pos ha]
  · rw [fpAdd, if_neg (by rw [hb]; tauto), if_pos (by rw [hb]; tauto), if_pos hb.symm]

/-- An Infinity is determined by its class (R44). -/
theorem eq_of_isInf_of_classOf_eq {a b : Sbfp} (ha : (classOf a).isInf = true) (h : classOf b = classOf a) : b = a := by
  rcases (classOf_isInf_iff_pattern a).1 ha with rfl | rfl <;>
    rcases (classOf_isInf_iff_pattern b).1 (h ▸ ha) with rfl | rfl
  · rfl
  · exact absurd h (by decide)
  · exact absurd h (by decide)
  · rfl

theorem fpAdd_of_absorbs_right (c : Config) {a b : Sbfp} (h : Absorbs b a) : fpAdd c a b = b := by
  obtain ⟨hb, ha | ha⟩ := h
  · have hnb := classOf_ne_nan_of_isInf hb
    rw [fpAdd, if_neg (by rw [ha]; tauto), if_neg (by rw [ha]; simp [SbfpClass.isInf]), if_neg (by rw [ha]; decide),
      if_pos hb]
  · have hab := eq_of_isInf_of_classOf_eq hb ha
    subst hab
    exact fpAdd_of_absorbs_left c ⟨hb, .inr rfl⟩

theorem fpAdd_eq_encodeExact (c : Config) {a b : Sbfp} (ha : classOf a = .finite) (hb : classOf b = .finite) :
    fpAdd c a b = encodeExact (exactSum a b) := by
  rw [fpAdd, if_neg (by rw [ha, hb]; decide), if_neg (by rw [ha, hb]; decide), if_neg (by rw [ha]; decide),
    if_neg (by rw [hb]; decide)]

/-! ### The exact sum -/

/-- The sign factor of R103. -/
theorem one_sub_two_mul_sign (s : BitVec 1) : (1 - 2 * (s.toNat : ℚ)) = (-1) ^ s.toNat := by
  rcases BitVec1_cases s with rfl | rfl
  · simp
  · norm_num [show (1 : BitVec 1).toNat = 1 from rfl]

/-- Aligning to an exponent that is not above the operand's own is exact (R103, R104). -/
theorem toRat_alignedMantissa (h : Sbfp) {em : ℤ} (hem : em ≤ unbiasedExponent h) :
    (alignedMantissa (unpack h) em : ℚ) * 2 ^ (-10 : ℤ) * 2 ^ em = real h := by
  obtain ⟨k, hk⟩ := Int.eq_ofNat_of_zero_le (sub_nonneg.2 hem)
  have hexp : unbiasedExponent h = k + em := by omega
  rw [real_eq_unpack, alignedMantissa]
  simp only [unpack, Magnitude.toRat]
  rw [hexp, add_sub_cancel_right, Int.toNat_natCast, zpow_add₀ two_ne_zero, zpow_natCast, ← one_sub_two_mul_sign]
  push_cast
  ring

/-- The integer sum and its exponent, aligned to the smaller one (R103 to R106). -/
theorem exactSum_eq (a b : Sbfp) : exactSum a b =
    { num := alignedMantissa (unpack a) (min (unbiasedExponent a) (unbiasedExponent b))
        + alignedMantissa (unpack b) (min (unbiasedExponent a) (unbiasedExponent b))
      exp := -10 + min (unbiasedExponent a) (unbiasedExponent b) } := rfl

/-- The aligned and added mantissas are the sum of the values (R103 to R106). -/
theorem toRat_exactSum (a b : Sbfp) : (exactSum a b).toRat = real a + real b := by
  rw [← toRat_alignedMantissa a (min_le_left (unbiasedExponent a) (unbiasedExponent b)),
    ← toRat_alignedMantissa b (min_le_right (unbiasedExponent a) (unbiasedExponent b)), exactSum_eq, Exact.toRat,
    zpow_add₀ two_ne_zero]
  push_cast
  ring

theorem fpAdd_of_finite (c : Config) {a b : Sbfp} (ha : classOf a = .finite) (hb : classOf b = .finite) :
    fpAdd c a b = encodeQ (real a + real b) := by
  rw [fpAdd_eq_encodeExact c ha hb, encodeExact_eq, toRat_exactSum]

/-- ADD delivers what the adder computes under the spec's parameters (R54, R98). -/
theorem exec_add_of_fpAdd {a b c : Sbfp} (hc : fpAdd specConfig a b = c) (s : State) :
    exec (.add a b) s = .next (s.deliverAdder a b c) := by
  rw [← hc]; rfl

theorem oppositeInfs_symm {a b : Sbfp} (h : OppositeInfs a b) : OppositeInfs b a :=
  ⟨h.2.1, h.1, h.2.2.symm⟩

theorem fpAdd_comm (c : Config) (a b : Sbfp) : fpAdd c a b = fpAdd c b a := by
  rcases add_cases a b with hnan | hopp | hab | hba | ⟨ha, hb⟩
  · rw [fpAdd_of_nan c hnan, fpAdd_of_nan c hnan.symm]
  · rw [fpAdd_of_oppositeInfs c hopp, fpAdd_of_oppositeInfs c (oppositeInfs_symm hopp)]
  · rw [fpAdd_of_absorbs_left c hab, fpAdd_of_absorbs_right c hab]
  · rw [fpAdd_of_absorbs_right c hba, fpAdd_of_absorbs_left c hba]
  · rw [fpAdd_of_finite c ha hb, fpAdd_of_finite c hb ha, add_comm]

/-! ### Zero sums -/

/-- Re-encoding gives a zero exactly below the smallest denormal (R74). -/
theorem sbfpMag_encodeQ_eq_zero_iff (v : ℚ) : sbfpMag (encodeQ v) = 0 ↔ |v| < 2 ^ (-24 : ℤ) := by
  have hone : gridUnits 10 1 = 1 := gridUnits_of_le (by norm_num)
  rcases lt_or_ge |v| (2 ^ 16) with hv | hv
  · constructor
    · intro h
      obtain ⟨-, -, hlt⟩ := encodeQ_truncates hv
      rwa [h, Nat.zero_add, hone, Nat.cast_one, one_mul] at hlt
    · intro h
      rw [encodeQ_of_underflow h, sbfpMag_pack]; rfl
  · rw [sbfpMag_encodeQ_of_overflow hv]
    exact iff_of_false (by decide) (not_lt.2 (le_trans (by norm_num) hv))

/-- A sum of SBFP values is a multiple of the smallest denormal, so a nonzero one is not below it (R107). -/
theorem real_add_eq_zero_iff (a b : Sbfp) : real a + real b = 0 ↔ |real a + real b| < 2 ^ (-24 : ℤ) := by
  have hsum : real a + real b =
      (((-1) ^ (sbfpSign a).toNat * gridUnits 10 (sbfpMag a) + (-1) ^ (sbfpSign b).toNat * gridUnits 10 (sbfpMag b) : ℤ)
        : ℚ) * 2 ^ (-24 : ℤ) := by
    rw [real_eq_gridUnits a, real_eq_gridUnits b]; push_cast; ring
  rw [hsum]
  generalize ((-1) ^ (sbfpSign a).toNat * gridUnits 10 (sbfpMag a) +
    (-1) ^ (sbfpSign b).toNat * gridUnits 10 (sbfpMag b) : ℤ) = k
  have hpos : (0 : ℚ) < 2 ^ (-24 : ℤ) := by positivity
  rw [mul_eq_zero_iff_right hpos.ne', abs_mul, abs_of_pos hpos, mul_lt_iff_lt_one_left hpos, ← Int.cast_abs]
  norm_cast
  exact Int.abs_lt_one_iff.symm

/-! ### Exactness of doubling -/

/-- Twice a grid magnitude is a grid magnitude: the next exponent, or the shifted fraction of a denormal (R108). -/
theorem exists_gridUnits_double (p n : ℕ) : ∃ m, gridUnits p m = 2 * gridUnits p n := by
  rcases Nat.lt_or_ge n (2 ^ p) with hn | hn
  · rcases Nat.lt_or_ge (2 * n) (2 ^ p) with h2n | h2n
    · exact ⟨2 * n, by rw [gridUnits_of_le h2n.le, gridUnits_of_le hn.le]⟩
    · refine ⟨1 * 2 ^ p + (2 * n - 2 ^ p), ?_⟩
      rw [gridUnits_of_fields (by omega), gridUnits_of_le hn.le, fieldUnits, if_neg one_ne_zero, Nat.sub_self, pow_zero]
      omega
  · obtain ⟨k, hk⟩ := Nat.exists_eq_succ_of_ne_zero (Nat.div_pos hn (by positivity)).ne'
    have hlt : n % 2 ^ p < 2 ^ p := Nat.mod_lt _ (by positivity)
    refine ⟨(n / 2 ^ p + 1) * 2 ^ p + n % 2 ^ p, ?_⟩
    rw [gridUnits_of_fields hlt, gridUnits, hk, fieldUnits, fieldUnits, if_neg (Nat.succ_ne_zero _),
      if_neg (Nat.succ_ne_zero _), Nat.add_sub_cancel, Nat.succ_sub_one, Nat.succ_eq_add_one, pow_succ]
    ring

/-- A result of the argument's magnitude is the argument: the signs agree (R61). -/
theorem real_encodeQ_of_abs {v : ℚ} (h : |real (encodeQ v)| = |v|) : real (encodeQ v) = v := by
  by_cases hv : v = 0
  · rw [hv, abs_zero, abs_eq_zero] at h
    rw [hv, h]
  · have hne : real (encodeQ v) ≠ 0 := by rw [← abs_pos, h]; exact abs_pos.2 hv
    have hsign := real_encodeQ_neg_iff hne
    rcases lt_or_gt_of_ne hv with hneg | hpos
    · rw [abs_of_neg (hsign.2 hneg), abs_of_neg hneg] at h
      exact neg_inj.1 h
    · rwa [abs_of_nonneg (not_lt.1 (mt hsign.1 hpos.not_gt)), abs_of_pos hpos] at h

/-- A representable magnitude below the overflow threshold is re-encoded exactly (R72). -/
theorem real_encodeQ_of_gridUnits {v : ℚ} {m : ℕ} (hm : |v| = gridUnits 10 m * 2 ^ (-24 : ℤ)) (hv : |v| < 2 ^ 16) :
    real (encodeQ v) = v := by
  have hle : m ≤ sbfpMag (encodeQ v) := (encodeQ_truncates hv).le_of_gridUnits_le hm.ge
  have hgrid := (gridUnits_strictMono 10).monotone hle
  refine real_encodeQ_of_abs (le_antisymm (abs_real_encodeQ_le hv) ?_)
  rw [hm, abs_real]
  gcongr

/-! ### The integer datapath -/

theorem minExponent6_toInt {a b : Sbfp} (ha : classOf a = .finite) (hb : classOf b = .finite) :
    (minExponent6 a b).toInt = min (unbiasedExponent a) (unbiasedExponent b) := by
  have hsle : (exponent6 a).sle (exponent6 b) = true ↔ unbiasedExponent a ≤ unbiasedExponent b := by
    rw [BitVec.sle_iff_toInt_le, exponent6_toInt ha, exponent6_toInt hb]
  rw [minExponent6]
  split
  · next h => rw [exponent6_toInt ha, min_eq_left (hsle.1 h)]
  · next h => rw [exponent6_toInt hb, min_eq_right (le_of_not_ge (mt hsle.2 h))]

/-- An aligned significand is at most 11 bits shifted by 29 (R109). -/
theorem aligned_significand_lt (h : Sbfp) {n : ℕ} (hn : n ≤ 29) : significand h * 2 ^ n < 2 ^ 40 := by
  have hpow : 2 ^ n ≤ 2 ^ 29 := Nat.pow_le_pow_right two_pos hn
  have := significand_le h
  calc significand h * 2 ^ n ≤ 2047 * 2 ^ 29 := Nat.mul_le_mul this hpow
    _ < 2 ^ 40 := by norm_num

/-- 40 bits hold every significand aligned to the other operand's exponent (R109). -/
theorem alignedField_toNat {h : Sbfp} {em : BitVec 6} (hf : classOf h = .finite) (hem : -14 ≤ em.toInt) :
    (alignedField h em).toNat = significand h * 2 ^ (unbiasedExponent h - em.toInt).toNat := by
  have hE := unbiasedExponent_range hf
  have hlt := aligned_significand_lt h (n := (unbiasedExponent h - em.toInt).toNat) (by omega)
  have hsig := significand_le h
  rw [alignedField, exponent6_toInt hf, BitVec.toNat_shiftLeft, BitVec.toNat_setWidth, significand11_toNat,
    Nat.mod_eq_of_lt (a := significand h) (by omega), Nat.shiftLeft_eq, Nat.mod_eq_of_lt hlt]

theorem alignedMantissa_eq (h : Sbfp) (em : ℤ) : alignedMantissa (unpack h) em =
    (1 - 2 * ((sbfpSign h).toNat : ℤ)) * ((significand h * 2 ^ (unbiasedExponent h - em).toNat : ℕ) : ℤ) := by
  rw [alignedMantissa, unpack]
  push_cast
  rfl

/-- 42 bits of two's complement hold the aligned significand with its sign (R109). -/
theorem signedField_toInt {h : Sbfp} {em : BitVec 6} (hf : classOf h = .finite) (hem : -14 ≤ em.toInt) :
    (signedField h em).toInt = alignedMantissa (unpack h) em.toInt ∧ |(signedField h em).toInt| < 2 ^ 40 := by
  have hE := unbiasedExponent_range hf
  have hlt := aligned_significand_lt h (n := (unbiasedExponent h - em.toInt).toNat) (by omega)
  rw [← alignedField_toNat hf hem] at hlt
  have hwide : ((alignedField h em).setWidth 42).toNat = (alignedField h em).toNat := by
    rw [BitVec.toNat_setWidth, Nat.mod_eq_of_lt (by omega)]
  have hpos : ((alignedField h em).setWidth 42).toInt = (alignedField h em).toNat := by
    rw [BitVec.toInt_eq_toNat_of_lt (by rw [hwide]; omega), hwide]
  have hneg : (-(alignedField h em).setWidth 42).toInt = -((alignedField h em).toNat : ℤ) := by
    rw [BitVec.toInt_neg, hpos, Int.bmod_eq_of_le (by omega) (by omega)]
  rw [alignedMantissa_eq, ← alignedField_toNat hf hem, signedField]
  rcases BitVec1_cases (sbfpSign h) with hs | hs
  · rw [hs, if_neg (by decide), hpos]
    exact ⟨by simp, by rw [abs_of_nonneg] <;> omega⟩
  · rw [hs, if_pos rfl, hneg, show (1 : BitVec 1).toNat = 1 from rfl]
    exact ⟨by push_cast; ring, by rw [abs_neg, abs_of_nonneg] <;> omega⟩

/-- 42 bits of two's complement hold the sum (R109). -/
theorem sumField_toInt {a b : Sbfp} (ha : classOf a = .finite) (hb : classOf b = .finite) :
    (sumField a b).toInt = (exactSum a b).num ∧ |(sumField a b).toInt| < 2 ^ 41 := by
  have hEa := unbiasedExponent_range ha
  have hEb := unbiasedExponent_range hb
  have hmin := minExponent6_toInt ha hb
  obtain ⟨hsa, hba⟩ := signedField_toInt (em := minExponent6 a b) ha (by omega)
  obtain ⟨hsb, hbb⟩ := signedField_toInt (em := minExponent6 a b) hb (by omega)
  rw [abs_lt] at hba hbb
  have hsum : (sumField a b).toInt =
      (signedField a (minExponent6 a b)).toInt + (signedField b (minExponent6 a b)).toInt := by
    rw [sumField, BitVec.toInt_add, Int.bmod_eq_of_le (by omega) (by omega)]
  refine ⟨?_, ?_⟩
  · rw [hsum, hsa, hsb, hmin, exactSum_eq]
  · rw [hsum, abs_lt]; omega

theorem addDatapath_eq {a b : Sbfp} (ha : classOf a = .finite) (hb : classOf b = .finite) :
    addDatapath a b = encodeExact (exactSum a b) := by
  rw [addDatapath, (sumField_toInt ha hb).1, minExponent6_toInt ha hb, sub_eq_neg_add]; rfl

/-! ### The special-value table -/

theorem eq_posInf {h : Sbfp} (hc : classOf h = .posInf) : h = 0x7C00 := eq_of_isInf_of_classOf_eq rfl hc

theorem eq_negInf {h : Sbfp} (hc : classOf h = .negInf) : h = 0xFC00 := eq_of_isInf_of_classOf_eq rfl hc

/-- Row by row, R99's table is what the adder's cases give. -/
theorem fpAdd_eq_of_addTable {a b c : Sbfp} (h : addTable (classOf a) (classOf b) = some c) :
    fpAdd specConfig a b = c := by
  unfold addTable at h
  split at h <;> cases h
  next hc => exact fpAdd_of_nan _ (.inl hc)
  next hc _ => exact fpAdd_of_nan _ (.inr hc)
  next ha hb => rw [fpAdd_of_absorbs_left _ ⟨isInf_of_posInf ha, .inr (hb.trans ha.symm)⟩, eq_posInf ha]
  next ha hb => exact fpAdd_of_oppositeInfs _ ⟨isInf_of_posInf ha, isInf_of_negInf hb, by rw [ha, hb]; decide⟩
  next ha hb => exact fpAdd_of_oppositeInfs _ ⟨isInf_of_negInf ha, isInf_of_posInf hb, by rw [ha, hb]; decide⟩
  next ha hb => rw [fpAdd_of_absorbs_left _ ⟨isInf_of_negInf ha, .inr (hb.trans ha.symm)⟩, eq_negInf ha]
  next ha hb => rw [fpAdd_of_absorbs_left _ ⟨isInf_of_posInf ha, .inl hb⟩, eq_posInf ha]
  next ha hb => rw [fpAdd_of_absorbs_left _ ⟨isInf_of_negInf ha, .inl hb⟩, eq_negInf ha]
  next ha hb => rw [fpAdd_of_absorbs_right _ ⟨isInf_of_posInf hb, .inl ha⟩, eq_posInf hb]
  next ha hb => rw [fpAdd_of_absorbs_right _ ⟨isInf_of_negInf hb, .inl ha⟩, eq_negInf hb]

/-! ### The obligations -/

/-- Settles O44: each row is a case of the adder. -/
theorem addFollowsSpecialTable : Obligations.AddFollowsSpecialTable := fun _ _ _ s h =>
  exec_add_of_fpAdd (fpAdd_eq_of_addTable h) s

/-- Settles O45: the sum is exact and re-encoded once. -/
theorem addIsTruncatedExactSum : Obligations.AddIsTruncatedExactSum := fun _ _ s ha hb =>
  exec_add_of_fpAdd (fpAdd_of_finite _ ha hb) s

/-- Settles O46: no field overflows, so the datapath forms the exact sum. -/
theorem addMatchesIntegerDatapath : Obligations.AddMatchesIntegerDatapath := by
  intro a b s ha hb
  have hEa := unbiasedExponent_range ha
  have hEb := unbiasedExponent_range hb
  have hmin := minExponent6_toInt ha hb
  obtain ⟨hsum, hbound⟩ := sumField_toInt ha hb
  have hadd : fpAdd specConfig a b = addDatapath a b := by
    rw [fpAdd_eq_encodeExact _ ha hb, addDatapath_eq ha hb]
  refine ⟨exec_add_of_fpAdd hadd s, ?_, hbound, hmin, by omega, by omega⟩
  rw [hsum, hmin, sub_eq_neg_add, ← toRat_exactSum]; rfl

/-- Settles O47: a sum below the smallest denormal is 0, and 0 is re-encoded without a sign. -/
theorem addZeroSumIsPositiveZero : Obligations.AddZeroSumIsPositiveZero := by
  intro a b s ha hb
  have hzero : sbfpMag (encodeQ (real a + real b)) = 0 → real a + real b = 0 := fun h =>
    (real_add_eq_zero_iff a b).2 ((sbfpMag_encodeQ_eq_zero_iff _).1 h)
  refine ⟨_, exec_add_of_fpAdd (fpAdd_of_finite _ ha hb) s, ⟨fun h => ?_, fun h => ?_⟩, fun h => ?_⟩
  · exact hzero (by rw [h]; rfl)
  · rw [h, encodeQ_zero]
  · have hsum := hzero (by rw [h]; rfl)
    rw [hsum, encodeQ_zero] at h
    exact absurd h (by decide)

/-- Settles O48: the ranges are those of encodeQ; no nonzero sum loses its sign, and twice a grid magnitude is one. -/
theorem addResultRanges : Obligations.AddResultRanges := by
  intro a b s ha hb
  refine ⟨_, exec_add_of_fpAdd (fpAdd_of_finite _ ha hb) s, classOf_encodeQ_ne_nan _, fun hover => ?_, fun hlt => ?_,
    fun hab hdouble => ?_⟩
  · rw [encodeQ_of_overflow (le_trans (by norm_num) hover)]
    split <;> rfl
  · have hv : |real a + real b| < 2 ^ 16 := hlt.trans_eq (by norm_num)
    refine ⟨(classOf_encodeQ_finite_iff _).2 hv, ?_, abs_real_encodeQ_le hv, fun h _ => abs_real_le_encodeQ hv⟩
    by_cases hreal : real (encodeQ (real a + real b)) = 0
    · have hsum : real a + real b = 0 := (real_add_eq_zero_iff a b).2
        ((sbfpMag_encodeQ_eq_zero_iff _).1 ((real_eq_zero_iff _).1 hreal))
      rw [hreal, hsum]
    · exact real_encodeQ_neg_iff hreal
  · subst hab
    obtain ⟨m, hm⟩ := exists_gridUnits_double 10 (sbfpMag a)
    have habs : |2 * real a| = 2 * |real a| := by rw [abs_mul, abs_two]
    have hgrid : |2 * real a| = gridUnits 10 m * 2 ^ (-24 : ℤ) := by
      rw [habs, abs_real, hm]; push_cast; ring
    rw [← two_mul]
    exact real_encodeQ_of_gridUnits hgrid (habs.trans_lt (hdouble.trans_eq (by norm_num)))

/-- Settles O49: every case of the adder is symmetric. -/
theorem addCommutes : Obligations.AddCommutes := fun a b s =>
  ⟨_, exec_add_of_fpAdd rfl s, exec_add_of_fpAdd (fpAdd_comm _ b a) s⟩

/-- Settles O50: a zero is finite and adds nothing to a finite value or to an Infinity. -/
theorem addZeroIsIdentity : Obligations.AddZeroIsIdentity := by
  intro a z s hz
  refine ⟨_, exec_add_of_fpAdd rfl s, ?_⟩
  have hmag := (isZero_iff_mag z).1 hz
  have hzfin : classOf z = .finite := (classOf_eq_finite_iff_mag z).2 (by omega)
  rcases class_cases a with ha | ha | ha
  · rw [fpAdd_of_nan _ (.inl ha), if_pos ha]; rfl
  · have hne : a ≠ 0x8000 := by rintro rfl; exact absurd ha (by decide)
    rw [fpAdd_of_absorbs_left _ ⟨ha, .inl hzfin⟩, if_neg (classOf_ne_nan_of_isInf ha), if_neg hne]
  · have hna : classOf a ≠ .nan := by rw [ha]; decide
    rw [fpAdd_of_finite _ ha hzfin, (real_eq_zero_iff z).2 hmag, add_zero, encodeQ_real ha, if_neg hna]

end Sys2Proof.Machine
end

section
/-! PROOFS. What the result holds in place of the conditions of R110, and where NaN results come from under every legal
configuration (R9, R95, R108). Both read off the cases of the units. -/

namespace Sys2Proof.Machine

/-! ### The conditions as facts about the exact value -/

theorem overflowing_iff (v : Exact) : overflowing v = true ↔ 2 ^ 16 ≤ |v.toRat| := by
  rw [← v.toRat_magnitude]; exact overflows_iff v.magnitude

theorem underflowing_iff (v : Exact) : underflowing v = true ↔ v.toRat ≠ 0 ∧ |v.toRat| < 2 ^ (-24 : ℤ) := by
  have hnum : v.num ≠ 0 ↔ v.toRat ≠ 0 := by
    rw [Exact.toRat, mul_ne_zero_iff_right (by positivity), Int.cast_ne_zero]
  have hscale : (v.magnitude.scale 24).toRat = |v.toRat| * 2 ^ (24 : ℤ) := by
    rw [Magnitude.toRat_scale, v.toRat_magnitude]
  have hlt : |v.toRat| < 2 ^ (-24 : ℤ) ↔ |v.toRat| * 2 ^ (24 : ℤ) < 1 := by
    rw [zpow_neg, ← one_div, lt_div_iff₀ (by positivity)]
  rw [underflowing, Bool.and_eq_true, bne_iff_ne, decide_eq_true_iff, hnum, Magnitude.floor_eq, hscale,
    Nat.floor_lt (by positivity), Nat.cast_one, hlt]

/-- Scaling to the smaller exponent compares the rationals. -/
theorem sameValue_iff (v w : Exact) : sameValue v w = true ↔ v.toRat = w.toRat := by
  have hscaled (u : Exact) {e : ℤ} (he : e ≤ u.exp) :
      ((u.num * 2 ^ (u.exp - e).toNat : ℤ) : ℚ) * 2 ^ e = u.toRat := by
    obtain ⟨k, hk⟩ := Int.eq_ofNat_of_zero_le (sub_nonneg.2 he)
    rw [Exact.toRat, show u.exp = k + e by omega, add_sub_cancel_right, Int.toNat_natCast, zpow_add₀ two_ne_zero,
      zpow_natCast]
    push_cast; ring
  rw [sameValue, beq_iff_eq, ← hscaled v (min_le_left v.exp w.exp), ← hscaled w (min_le_right v.exp w.exp),
    mul_left_inj' (by positivity), Int.cast_inj]

/-- A re-encoded value that differs from the exact one is smaller (R66, R72). -/
theorem abs_real_lt_of_truncating {v : Exact} (h : truncating v = true) : |real (encodeQ v.toRat)| < |v.toRat| := by
  rw [truncating, Bool.and_eq_true, decide_eq_true_iff, Bool.not_eq_true', encodeExact_eq] at h
  obtain ⟨hfin, hne⟩ := h
  refine lt_of_le_of_ne (abs_real_encodeQ_le ((classOf_encodeQ_finite_iff _).1 hfin)) fun habs => ?_
  rw [← Bool.not_eq_true, sameValue_iff, exact16_toRat] at hne
  exact hne (real_encodeQ_of_abs habs)

/-- No Infinity comes out below the overflow threshold (R110, log 19). -/
theorem infiniteWithoutOverflow_eq_false (v : Exact) : infiniteWithoutOverflow v = false := by
  rw [infiniteWithoutOverflow, encodeExact_eq, Bool.and_eq_false_iff, Bool.not_eq_false', overflowing_iff,
    ← classOf_encodeQ_isInf_iff, ← Bool.not_eq_true]
  exact (em _).symm

/-- An invocation with an exact value re-encodes it on r (R69, R93, R106). -/
theorem exec_r_of_exactResult {i : Instr} {v : Exact} {s s' : State} (hv : exactResult i = some v)
    (h : exec i s = .next s') : s'.r = (encodeQ v.toRat).setWidth 64 := by
  cases i with
  | encode d =>
    obtain ⟨hd, rfl⟩ : binary64Exp d ≠ 2047 ∧ exact64 d = v := by simpa [exactResult] using hv
    cases (exec_encode_finite hd rfl s).symm.trans h
    rw [exact64_toRat]; rfl
  | decode d => cases hv
  | mul a b =>
    obtain ⟨⟨ha, hb⟩, rfl⟩ : (classOf a = .finite ∧ classOf b = .finite) ∧ exactProduct a b = v := by
      simpa [exactResult] using hv
    cases (exec_mul_of_fpMultiply (fpMultiply_of_finite _ ha hb) s).symm.trans h
    rw [toRat_exactProduct]; rfl
  | add a b =>
    obtain ⟨⟨ha, hb⟩, rfl⟩ : (classOf a = .finite ∧ classOf b = .finite) ∧ exactSum a b = v := by
      simpa [exactResult] using hv
    cases (exec_add_of_fpAdd (fpAdd_of_finite _ ha hb) s).symm.trans h
    rw [toRat_exactSum]; rfl

/-- An invalid combination gives the canonical NaN (R88, R91, R100, R101). -/
theorem exec_r_of_invalid {i : Instr} {s s' : State} (hi : invalidOperands i = true) (h : exec i s = .next s') :
    s'.r = 0x7C01 := by
  cases i with
  | encode d => cases hi
  | decode d => cases hi
  | mul a b =>
    have hmul : fpMultiply specConfig a b = 0x7C01 := by
      simp only [invalidOperands, Bool.or_eq_true, Bool.and_eq_true, decide_eq_true_eq] at hi
      rcases hi with (hnan | hz) | hz
      · exact fpMultiply_of_nan _ hnan
      · exact fpMultiply_of_infTimesZero _ (.inl hz)
      · exact fpMultiply_of_infTimesZero _ (.inr hz)
    cases (exec_mul_of_fpMultiply hmul s).symm.trans h
    rfl
  | add a b =>
    have hadd : fpAdd specConfig a b = 0x7C01 := by
      simp only [invalidOperands, Bool.or_eq_true, Bool.and_eq_true, decide_eq_true_eq, bne_iff_ne] at hi
      rcases hi with hnan | ⟨⟨ha, hb⟩, hne⟩
      · exact fpAdd_of_nan _ hnan
      · exact fpAdd_of_oppositeInfs _ ⟨ha, hb, hne⟩
    cases (exec_add_of_fpAdd hadd s).symm.trans h
    rfl

/-- A condition on the exact value, of an invocation that has one. -/
theorem any_exactResult {i : Instr} {v : Exact} {p : Exact → Bool} (hv : exactResult i = some v)
    (h : (exactResult i).any p = true) : p v = true := by
  rwa [hv, Option.any_some] at h

theorem exists_of_any {o : Option Exact} {p : Exact → Bool} (h : o.any p = true) : ∃ v, o = some v := by
  cases o with
  | none => cases h
  | some v => exact ⟨v, rfl⟩

/-! ### The obligations -/

/-- Settles O51: every clause is a range of encodeQ on the exact value, a case of the arithmetic units, or step 0 of
the encoder. -/
theorem conditionsShowOnlyInResult : Obligations.ConditionsShowOnlyInResult := by
  intro i s
  obtain ⟨s', hs'⟩ := exec_completes i s
  refine ⟨s', hs', fun v hv h => ?_, fun v hv h => ?_, fun v hv h => ?_, ?_, fun h => exec_r_of_invalid h hs', ?_, ?_⟩
  · have hover := (overflowing_iff v).1 (any_exactResult hv h)
    rw [exec_r_of_exactResult hv hs', encodeQ_of_overflow hover]
    split <;> rfl
  · obtain ⟨-, hunder⟩ := (underflowing_iff v).1 (any_exactResult hv h)
    rw [exec_r_of_exactResult hv hs', encodeQ_of_underflow hunder]
    split <;> rfl
  · rw [exec_r_of_exactResult hv hs', extract_low16_setWidth]
    exact abs_real_lt_of_truncating (any_exactResult hv h)
  · rintro (h | h | h) <;> exact exists_of_any h
  · rintro d rfl h
    have hd : binary64Exp d = 2047 := by simpa [Condition.holds, hostSpecialOperand] using h
    cases (exec_encode_of_fpEncode rfl s).symm.trans hs'
    rw [deliverEncoder_r, extract_low16_setWidth]
    refine ⟨?_, fun hf => ?_, classOf_fpEncode_of_hostNaN hd⟩
    · by_cases hf : binary64Frac d = 0
      · rw [fpEncode_of_hostInf hd hf, sbfpSign_pack]
      · rw [fpEncode_of_hostNaN hd hf, sbfpSign_pack]
    · rw [fpEncode_of_hostInf hd hf]; exact classOf_pack_isInf _
  · rw [Condition.holds, ← Bool.not_eq_true]
    intro h
    obtain ⟨v, hv⟩ := exists_of_any h
    exact absurd (any_exactResult hv h) (by rw [infiniteWithoutOverflow_eq_false]; decide)

/-- MUL gives a NaN exactly for a NaN operand, or for Infinity times zero where the parameter says so (R87, R95). -/
theorem classOf_fpMultiply_nan_iff {c : Config} (hc : classOf c.arithNaN = .nan) (a b : Sbfp) :
    classOf (fpMultiply c a b) = .nan ↔
      classOf a = .nan ∨ classOf b = .nan ∨ (c.mulInfZero = .nan ∧ InfTimesZero a b) := by
  rcases mul_cases a b with ⟨hnan, -⟩ | hzero | ⟨hinf, hnz⟩ | ⟨⟨ha, hb⟩, hnz⟩
  · rw [fpMultiply_of_nan c hnan]
    exact iff_of_true hc (by tauto)
  · obtain ⟨hna, hnb⟩ := ne_nan_of_infTimesZero hzero
    rw [fpMultiply_of_infTimesZero c hzero, infZeroResult]
    cases hp : c.mulInfZero with
    | nan => exact iff_of_true hc (.inr (.inr ⟨rfl, hzero⟩))
    | zero => exact iff_of_false (show classOf 0 ≠ .nan by decide) (by simp [hna, hnb])
  · obtain ⟨-, hna, hnb, -, -⟩ := id hinf
    rw [fpMultiply_of_infTimesNonzero c hinf]
    exact iff_of_false (classOf_ne_nan_of_isInf (classOf_pack_isInf _)) (by tauto)
  · rw [fpMultiply_of_finite c ha hb, ha, hb]
    exact iff_of_false (classOf_encodeQ_ne_nan _) (by simp [hnz])

/-- An Infinity that absorbs the other operand is no invalid combination (R101, R102). -/
theorem not_invalid_of_absorbs {a b : Sbfp} (h : Absorbs a b) :
    ¬ (classOf a = .nan ∨ classOf b = .nan ∨ OppositeInfs a b) := by
  obtain ⟨ha, hb⟩ := h
  have hna := classOf_ne_nan_of_isInf ha
  rcases hb with hfin | hsame
  · simp [OppositeInfs, hna, hfin, SbfpClass.isInf]
  · simp [OppositeInfs, hna, hsame]

/-- ADD gives a NaN exactly for a NaN operand or for Infinities of opposite signs (R99, R108). -/
theorem classOf_fpAdd_nan_iff {c : Config} (hc : classOf c.arithNaN = .nan) (a b : Sbfp) :
    classOf (fpAdd c a b) = .nan ↔ classOf a = .nan ∨ classOf b = .nan ∨ OppositeInfs a b := by
  rcases add_cases a b with hnan | hopp | hab | hba | ⟨ha, hb⟩
  · rw [fpAdd_of_nan c hnan]
    exact iff_of_true hc (by tauto)
  · rw [fpAdd_of_oppositeInfs c hopp]
    exact iff_of_true hc (.inr (.inr hopp))
  · rw [fpAdd_of_absorbs_left c hab]
    exact iff_of_false (classOf_ne_nan_of_isInf hab.1) (not_invalid_of_absorbs hab)
  · rw [fpAdd_of_absorbs_right c hba]
    refine iff_of_false (classOf_ne_nan_of_isInf hba.1) fun h => not_invalid_of_absorbs hba ?_
    rcases h with h | h | h
    · exact .inr (.inl h)
    · exact .inl h
    · exact .inr (.inr (oppositeInfs_symm h))
  · rw [fpAdd_of_finite c ha hb, OppositeInfs, ha, hb]
    exact iff_of_false (classOf_encodeQ_ne_nan _) (by decide)

/-- Settles O52: the cases of the units, with the arithmetic NaN a NaN under every legal configuration. -/
theorem naNResultsUnderAnyLegalConfig : Obligations.NaNResultsUnderAnyLegalConfig := by
  rintro c ⟨-, -, hc⟩ a b
  exact ⟨classOf_fpMultiply_nan_iff hc a b, classOf_fpAdd_nan_iff hc a b⟩

end Sys2Proof.Machine
end
